-- ==== Sys2Proof/Word.lean ====
section
/-! DEFINITION. The word of the machine: one tape cell and one program cell are both 8 bits wide
(spec/00_scope.md R6: `CELL_BITS` = 8, `IWIDTH` = 8). Positions and indices are not words: `IP`, `CP`, `RS`, `EPOS`
and the entries of `STK` and `JT` are unbounded natural numbers (R6, R7). -/

namespace Sys2Proof

/-- One tape cell, or one character code of a program cell: an unsigned number in 0..255 (R6, R7, R41). -/
abbrev Byte := BitVec 8

end Sys2Proof
end

