-- ==== Sys2Proof/Config.lean ====
section
/-! DEFINITION. What the spec leaves to the realisation or to the environment and what no step changes: the free
values. Each is a constant without a body, so that nothing can be proved of its value. The parameters that the host
sets before a run (`PROG`, `DEBUG`, `TAPE_MAX`, `INQ`; spec/00_scope.md R6) are fields of State, since the step
reads them there. -/

namespace Sys2Proof

/-- FREE VALUE. What `JT` answers at a position where it has no entry. spec/44_loop_control.md R113: "A model that
wants a total function may return any value for an undefined entry"; spec/93_implementation_defined.md U6: `any
value`. No run from a launch reads it. Assumption log 4. -/
opaque Config.undefinedEntry : Nat → Nat

/-- FREE VALUE. Unit number `k` of an endless input, for the host's machine: spec/00_scope.md R6 lets `INQ` be "finite
or infinite" and makes it an argument of the model. `Machine.stepFrom` takes that argument, any environment at all; the
host's `step` has no room for one, and is `stepFrom` at this open environment. Assumption log 3. -/
opaque Config.endlessUnit : Nat → List Nat

end Sys2Proof
end

