-- ==== Sys2Proof/Syntax.lean ====
section
/-! DEFINITION. The instructions: one constructor for each of the nine rows of spec/opcode_table.json
(spec/30_encoding.md R62, R63). No instruction has an operand (R66); `nop` carries the inert cell it was read from,
the row's one field `c`, so that an encoder can give the cell back. -/

namespace Sys2Proof

/-- The nine decode classes of spec/30_encoding.md R63. -/
inductive Instr where
  | inc                 -- `+`  INC    R100
  | input               -- `,`  IN     R117
  | dec                 -- `-`  DEC    R101
  | out                 -- `.`  OUT    R116
  | left                -- `<`  LEFT   R105
  | right               -- `>`  RIGHT  R104
  | loops               -- `[`  LOOPS  R110
  | loope               -- `]`  LOOPE  R111
  | nop (c : Byte)      -- any other character  NOP  R93
  deriving DecidableEq, Repr

end Sys2Proof
end

