-- ==== Sys2Proof/WellFormed.lean ====
section
/-! DEFINITION. Which terms of `Instr` stand for an instruction: the eight operations always, a `nop` only when its
cell is one of the 248 inert values. The inert values are written out here as spec/30_encoding.md R64 lists them,
independently of the decoder's table. -/

namespace Sys2Proof

/-- The inert cell values, range by range as in spec/30_encoding.md R64: 0x00..0x2A, 0x2F..0x3B, 0x3D, 0x3F..0x5A,
0x5C, 0x5E..0xFF. -/
def isInert (c : Byte) : Bool :=
  decide (c ≤ 0x2A) || (decide (0x2F ≤ c) && decide (c ≤ 0x3B)) || c == 0x3D ||
    (decide (0x3F ≤ c) && decide (c ≤ 0x5A)) || c == 0x5C || decide (0x5E ≤ c)

/-- An instruction term is well formed when some program cell decodes to it: a `nop` holds an inert value (R64), the
other eight have no operand to check (R66). -/
def Instr.wellFormed : Instr → Bool
  | .inc => true
  | .input => true
  | .dec => true
  | .out => true
  | .left => true
  | .right => true
  | .loops => true
  | .loope => true
  | .nop c => isInert c

end Sys2Proof
end

