-- ==== Sys2Proof/Decode.lean ====
section
/-! DEFINITION. The decoder and, after it, the encoder, both from the one opcode map of spec/30_encoding.md R62. An
instruction is exactly one program cell (R60), and the match is on the whole cell. -/

namespace Sys2Proof

/-- `CODE(+)` (R62). The numeric codes of this map are the spec's, marked there as general knowledge (GK1). -/
def codeInc : Byte := 0x2B
/-- `CODE(,)` (R62). -/
def codeIn : Byte := 0x2C
/-- `CODE(-)` (R62). -/
def codeDec : Byte := 0x2D
/-- `CODE(.)` (R62). -/
def codeOut : Byte := 0x2E
/-- `CODE(<)` (R62). -/
def codeLeft : Byte := 0x3C
/-- `CODE(>)` (R62). -/
def codeRight : Byte := 0x3E
/-- `CODE([)` (R62). -/
def codeLoops : Byte := 0x5B
/-- `CODE(])` (R62). -/
def codeLoope : Byte := 0x5D

/-- The opcode map of R62, in code order. -/
def opcodeTable : List (Byte × Instr) :=
  [(codeInc, .inc), (codeIn, .input), (codeDec, .dec), (codeOut, .out),
   (codeLeft, .left), (codeRight, .right), (codeLoops, .loops), (codeLoope, .loope)]

/-- `Decode(c)` of R63: the eight codes are tested first and every other value is a `NOP` (R64). It reads nothing but
the cell and never fails. -/
def decodeCell (c : Byte) : Instr :=
  match opcodeTable.find? (fun row => row.1 == c) with
  | some row => row.2
  | none => .nop c

/-- Why a sequence of cells does not begin with an instruction. No cell value is refused (R65); the one reason is
that there is no cell. -/
inductive DecodeError where
  /-- The sequence of cells is empty. -/
  | noCell
  deriving DecidableEq, Repr

/-- The instruction at the head of a sequence of cells, with the cells after it: an instruction is one cell (R60). -/
def decode : List Byte → Except DecodeError (Instr × List Byte)
  | [] => .error .noCell
  | c :: rest => .ok (decodeCell c, rest)

/-- The host's reading of one opcode-table word: the `nbits` bits of `w`, bit 0 the least significant bit of the
first cell. An instruction is one cell (R60), so cells beyond the first are not part of it. -/
def decodeTableWord (nbits w : Nat) : Option Instr :=
  match decode [BitVec.ofNat 8 (w % 2 ^ nbits)] with
  | .ok (i, _) => some i
  | .error _ => none

/-- The eight instructions that a step report names: "one of the eight instruction characters" (R91, R144). -/
def Instr.recognised : Instr → Bool
  | .inc => true
  | .input => true
  | .dec => true
  | .out => true
  | .left => true
  | .right => true
  | .loops => true
  | .loope => true
  | .nop _ => false

/-- The one cell that stands for an instruction (R61, R62; an inert cell for itself, R64). -/
def encodeCell : Instr → Byte
  | .inc => codeInc
  | .input => codeIn
  | .dec => codeDec
  | .out => codeOut
  | .left => codeLeft
  | .right => codeRight
  | .loops => codeLoops
  | .loope => codeLoope
  | .nop c => c

/-- The cells of an instruction: always exactly one (R60). -/
def encode (i : Instr) : List Byte := [encodeCell i]

/-- The program text of a sequence of instructions, one cell each, position 0 first (R68). -/
def assemble (is : List Instr) : List Byte := is.flatMap encode

/-- The instructions of a program text, one for each of its cells (R60, R63, R69). -/
def disassemble (text : List Byte) : List Instr := text.map decodeCell

end Sys2Proof
end

