-- ==== Sys2Proof/Machine/State.lean ====
section
/-! DEFINITION. The state of the machine: every element of spec/10_state.md R13 and nothing else, as plain data, with
the parameters of spec/00_scope.md R6 that the step reads (`PROG`, `PLEN`, `DEBUG`, `TAPE_MAX`). The reasons a step
can stop, and the state after reset (R32). -/

namespace Sys2Proof.Machine

/-- `PHASE` (R14). -/
inductive Phase where
  /-- Code 0: the Bracket Resolver is scanning. -/
  | resolve
  /-- Code 1: the Execution Engine is executing. -/
  | run
  /-- Code 2: the run completed. -/
  | halt
  /-- Code 3: a fatal error ended the run. -/
  | fault
  deriving DecidableEq, Repr

/-- `ECAUSE` (R26, R126). -/
inductive Cause where
  /-- Code 0: no fault. -/
  | none
  /-- Code 1: raised by the resolver, R81 and R84. -/
  | unmatchedBracket
  /-- Code 2: raised by `LEFT`, R105. -/
  | negativeTapeIndex
  /-- Code 3: raised by `RIGHT`, R108, only when `TAPE_MAX` is finite. -/
  | tapeLimit
  deriving DecidableEq, Repr

/-- The branch report of a `TRACE_STEP` event (R145). -/
inductive Branch where
  | none
  | skip
  | enter
  | finish
  | reenter
  deriving DecidableEq, Repr

/-- One entry of `HIST` (R24). -/
inductive Event where
  /-- `OUT(v)`: the code point sent to the output collaborator (R116). -/
  | out (v : Byte)
  /-- `DIAG`: one rejected input unit; its text is not modelled (R120). -/
  | diag
  /-- `TRACE_PROGRAM(PROG)` (R143). -/
  | traceProgram (text : List Byte)
  /-- `TRACE_STEP(tape, cp, ch, branch)` (R144). -/
  | traceStep (tape : List Byte) (cp : Nat) (ch : Byte) (branch : Branch)
  deriving DecidableEq, Repr

/-- One input unit: the code points of one line, without its terminator (R25, R119). -/
abbrev InputUnit := List Nat

/-- `INQ` (R25): the units not yet consumed, first one next. R6 lets the sequence be finite or infinite: a finite
`INQ` is `given` with `endless = none`; an infinite one goes on after `given` with the units number `k, k + 1, ...` of
the environment when `endless = some k`. The environment is an argument of the step (`Machine.Environment`). -/
structure InputQueue where
  given : List InputUnit
  endless : Option Nat
  deriving DecidableEq, Repr

/-- A memory of bytes: (address, byte) pairs, addresses strictly rising, no pair that holds what an unlisted address
reads as. How many of its cells exist is a register beside it (`PLEN`, `TLEN`). -/
abbrev Memory := List Host.Cell

/-- `JT` (R19): a partial map from positions to positions, as (position, position) pairs, keys strictly rising. -/
abbrev JumpTable := List (Nat × Nat)

/-- The state: the elements of R13, in its order. -/
structure State where
  /-- `PROG`: the program characters (R15). No step writes it. -/
  prog : Memory
  /-- `PLEN`: how many characters `PROG` has (R15). -/
  plen : Nat
  /-- `DEBUG`: the debug flag (R16). No step writes it. -/
  debug : Bool
  /-- `TAPE_MAX`: the largest number of tape cells; `none` is `INF` (R6, R49). No step writes it. -/
  tapeMax : Option Nat
  /-- `PHASE` (R14). -/
  phase : Phase
  /-- `RS`: the resolver's scan position (R17). -/
  rs : Nat
  /-- `STK`: positions of unmatched `[`, oldest (bottom) first (R18). -/
  stk : List Nat
  /-- `JT`: the Jump Table (R19). -/
  jt : JumpTable
  /-- `IP`: the Instruction Pointer (R20). -/
  ip : Nat
  /-- `CP`: the Cell Pointer (R21). -/
  cp : Nat
  /-- `TAPE`: the values of the tape cells (R22). -/
  tape : Memory
  /-- `TLEN`: how many tape cells exist (R22). -/
  tlen : Nat
  /-- `INWAIT`: the `IN` at `IP` has already rejected a unit (R23). -/
  inwait : Bool
  /-- `HIST`: every event emitted since reset, oldest first (R24). -/
  hist : List Event
  /-- `INQ`: the input units not yet consumed (R25). -/
  inq : InputQueue
  /-- `ECAUSE` (R26). -/
  ecause : Cause
  /-- `ECHAR` (R26). -/
  echar : Byte
  /-- `EPOS` (R26). -/
  epos : Nat
  deriving DecidableEq, Repr

/-- Why there is no next state. None of these is a fault of the spec's R126: those are taken, in a next state with
`PHASE = FAULT` and the error record written (R130). Every one of them is a state in which no step rule applies. -/
inductive Fault where
  /-- Raised by `step` in phase `HALT`: the run is complete and "there is no step" (R9, R96). Safe. -/
  | runHalted
  /-- Raised by `step` in phase `FAULT`: "no step rule applies; the machine stays there until reset" (R9, R130).
  Safe. -/
  | runFaulted
  /-- Raised by `IN` when `INQ` is empty: the stuck state of R122, the "blocking wait". It records no cause, stores
  no value and ends when a unit arrives. Safe. -/
  | inputWait
  /-- Raised by an access to the current cell when `CP >= TLEN`: that cell does not exist (R45; `MemRead` and
  `MemWrite` are "defined only for `a < TLEN`", R8). No reachable state raises it (R21). Safe. -/
  | noSuchTapeCell
  /-- Raised by a fetch when `IP > PLEN`: that position holds no character (R8, R15). No reachable state raises it
  (R98). Safe. -/
  | noSuchProgramCell
  deriving DecidableEq, Repr

/-- Why an instruction has no meaning in the model. -/
inductive Refusal where
  /-- Raised by an arm of `exec` that has no meaning yet. No arm uses it: all nine rows are modelled. Safe. -/
  | notModelled (mnemonic : String)
  deriving DecidableEq, Repr

/-- The state after reset (R32, R150): the spec's value for every element. `PROG`, `DEBUG`, `TAPE_MAX` and `INQ` are
what the host supplied; here the host has supplied nothing: no characters, `DEBUG` absent and so 0 (R16), `TAPE_MAX`
at its normative value `INF` (R6, R49), no input units. `TAPE = [0]` is one existing cell (`TLEN = 1`) with nothing
listed. Assumption log 5. -/
def State.reset : State where
  prog := []
  plen := 0
  debug := false
  tapeMax := none
  phase := .resolve
  rs := 0
  stk := []
  jt := []
  ip := 0
  cp := 0
  tape := []
  tlen := 1
  inwait := false
  hist := []
  inq := { given := [], endless := none }
  ecause := .none
  echar := 0
  epos := 0

end Sys2Proof.Machine
end

