-- ==== Sys2Proof/Machine/Ops.lean ====
section
/-! DEFINITION. The named operations over memory and registers that every step rule is written with: the primitives
of spec/00_scope.md R8. Each is a function of the state alone. Taking a fault (`raise`, R130) is one of them. There is
no return from a fault (R132). -/

namespace Sys2Proof.Machine

/-! ### Maps kept as rising lists -/

/-- The value listed at key `a`. -/
def Assoc.get {β : Type} : List (Nat × β) → Nat → Option β
  | [], _ => none
  | (k, v) :: rest, a => if k = a then some v else Assoc.get rest a

/-- Adds or replaces the entry at key `a`, keeping the keys rising. -/
def Assoc.set {β : Type} : List (Nat × β) → Nat → β → List (Nat × β)
  | [], a, b => [(a, b)]
  | (k, v) :: rest, a, b =>
    if k < a then (k, v) :: Assoc.set rest a b
    else if k = a then (a, b) :: rest
    else (a, b) :: (k, v) :: rest

/-- Removes the entry at key `a`. -/
def Assoc.erase {β : Type} (m : List (Nat × β)) (a : Nat) : List (Nat × β) :=
  m.filter fun e => e.1 != a

/-- The keys rise strictly, so that equal maps are equal lists. -/
abbrev Assoc.Rising {β : Type} (m : List (Nat × β)) : Prop :=
  m.Pairwise fun e f => e.1 < f.1

/-! ### Byte memories -/

/-- What an unlisted address reads as. For `TAPE` this is the value of a fresh cell (R45) and of the reset cell
(R32); for `PROG`, whose every cell the host writes before the run (R152), it is only the value that a listing
leaves out. -/
def Memory.unlisted : Byte := 0

/-- The canonical form: addresses strictly rising and no pair that holds the unlisted value. -/
abbrev Memory.wf (m : Memory) : Prop :=
  Assoc.Rising m ∧ ∀ e ∈ m, e.2 ≠ Memory.unlisted

/-- The byte at address `a`. -/
def Memory.read (m : Memory) (a : Nat) : Byte := (Assoc.get m a).getD Memory.unlisted

/-- Sets the byte at address `a`; the unlisted value is stored by removing the pair. -/
def Memory.write (m : Memory) (a : Nat) (v : Byte) : Memory :=
  if v = Memory.unlisted then Assoc.erase m a else Assoc.set m a v

/-- The memory that holds `text` from address `base` on and nothing else. -/
def Memory.load : Nat → List Byte → Memory
  | _, [] => []
  | base, b :: rest =>
    if b = Memory.unlisted then Memory.load (base + 1) rest
    else (base, b) :: Memory.load (base + 1) rest

/-- The first `n` bytes, address 0 first. -/
def Memory.cells (m : Memory) (n : Nat) : List Byte := (List.range n).map m.read

/-! ### Codes of the two named registers -/

/-- The numeric code of `PHASE` (R14). -/
def Phase.code : Phase → Nat
  | .resolve => 0
  | .run => 1
  | .halt => 2
  | .fault => 3

/-- The numeric code of `ECAUSE` (R26). -/
def Cause.code : Cause → Nat
  | .none => 0
  | .unmatchedBracket => 1
  | .negativeTapeIndex => 2
  | .tapeLimit => 3

/-! ### Reading the three address spaces (R40) -/

/-- `MemRead(PROG, a, 1)`: defined only for `a < PLEN` (R8). -/
def State.readProg (s : State) (a : Nat) : Option Byte :=
  if a < s.plen then some (s.prog.read a) else none

/-- `MemRead(TAPE, a, 1)`: defined only for `a < TLEN` (R8). A cell never created does not exist (R45). -/
def State.readTape (s : State) (a : Nat) : Option Byte :=
  if a < s.tlen then some (s.tape.read a) else none

/-- `cur`: the current cell, the only cell a program can reach (R8, R42, R107). -/
def State.cur (s : State) : Option Byte := s.readTape s.cp

/-- `JT[a]`; where `JT` has no entry, the free value of R113. -/
def State.jumpEntry (s : State) (a : Nat) : Nat := (Assoc.get s.jt a).getD (Config.undefinedEntry a)

/-- The whole program text: the payload of `TRACE_PROGRAM` (R143). -/
def State.text (s : State) : List Byte := s.prog.cells s.plen

/-- All `TLEN` cell values: the payload of `TRACE_STEP` (R144). -/
def State.tapeCells (s : State) : List Byte := s.tape.cells s.tlen

/-! ### Writing -/

/-- `MemWrite(TAPE, a, 1, v)` (R8): that cell changes and nothing else (R47). -/
def State.writeTape (s : State) (a : Nat) (v : Byte) : State := { s with tape := s.tape.write a v }

/-- `TapeAppend(0)` (R45): a new cell of value 0 at index `TLEN`, then `TLEN <- TLEN + 1`. -/
def State.tapeAppend (s : State) : State :=
  { s with tape := s.tape.write s.tlen 0, tlen := s.tlen + 1 }

/-- `CP <- a`. -/
def State.setCp (s : State) (a : Nat) : State := { s with cp := a }

/-- `IP <- a`. -/
def State.setIp (s : State) (a : Nat) : State := { s with ip := a }

/-- The advance `IP <- IP + 1` (R94). -/
def State.advance (s : State) : State := { s with ip := s.ip + 1 }

/-- `PHASE <- p`. -/
def State.setPhase (s : State) (p : Phase) : State := { s with phase := p }

/-- `INWAIT <- b`. -/
def State.setInwait (s : State) (b : Bool) : State := { s with inwait := b }

/-- `RS <- RS + 1`. -/
def State.scanNext (s : State) : State := { s with rs := s.rs + 1 }

/-- `STK <- stk`. -/
def State.setStk (s : State) (stk : List Nat) : State := { s with stk := stk }

/-- `JT[a] <- b` (R8). -/
def State.setEntry (s : State) (a b : Nat) : State := { s with jt := Assoc.set s.jt a b }

/-- `INQ <- q`. -/
def State.setInq (s : State) (q : InputQueue) : State := { s with inq := q }

/-- `emit E` (R8): appends `E` to `HIST`. -/
def State.emit (s : State) (e : Event) : State := { s with hist := s.hist ++ [e] }

/-- Fault entry, `raise F(info)` (R130): the error record and `PHASE`, nothing else. Control goes nowhere: there is no
handler and no saved pointer, and `IP` is not advanced (R94). -/
def State.raise (s : State) (cause : Cause) (ch : Byte) (pos : Nat) : State :=
  { s with ecause := cause, echar := ch, epos := pos, phase := .fault }

/-! ### The resolver's stack (R8, R18): bottom first, top last -/

/-- `push(STK, a)`. -/
def State.push (s : State) (a : Nat) : State := s.setStk (s.stk ++ [a])

/-- The entry that `pop(STK)` returns; none when the stack is empty. -/
def State.top (s : State) : Option Nat := s.stk.getLast?

/-- `pop(STK)`: removes the newest entry. -/
def State.pop (s : State) : State := s.setStk s.stk.dropLast

/-- `bottom(STK)`: the oldest entry; none when the stack is empty. -/
def State.bottom (s : State) : Option Nat := s.stk.head?

/-! ### The input port (R56) -/

/-- An environment: which unit it hands over as number `k` of an endless input. An argument of the model (R6,
92_eei_decisions.md D7), so that a claim fixes it or quantifies over it. -/
abbrev Environment := Nat → InputUnit

/-- The first unit of the queue and the queue without it, when `env` is the environment; none when the queue is
empty. -/
def InputQueue.takeFrom (env : Environment) (q : InputQueue) : Option (InputUnit × InputQueue) :=
  match q.given, q.endless with
  | u :: rest, e => some (u, { given := rest, endless := e })
  | [], some k => some (env k, { given := [], endless := some (k + 1) })
  | [], none => none

/-- `InTake()` (R8, R25): the first input unit and the state without it; none when `INQ` is empty (R122). A unit once
taken is never seen again (R47). -/
def State.inTakeFrom (env : Environment) (s : State) : Option (InputUnit × State) :=
  match s.inq.takeFrom env with
  | some (u, q) => some (u, s.setInq q)
  | none => none

end Sys2Proof.Machine
end

