-- ==== Sys2Proof/Machine/Operands.lean ====
section
/-! DEFINITION. The operand forms. No instruction names an operand (spec/30_encoding.md R66); the implicit ones are
the current cell (the one addressing mode, spec/43_pointer_moves.md R107), the input unit with its validity, and the
cell values that the ALU writes. -/

namespace Sys2Proof.Machine

/-- What `exec` and `step` answer. -/
abbrev Result := Host.Outcome State Fault Refusal

/-- Runs `k` on the value of the current cell. A cell at `CP >= TLEN` does not exist and has no value (R8, R45). -/
def State.withCur (s : State) (k : Byte → Result) : Result :=
  match s.cur with
  | some v => k v
  | none => .fault .noSuchTapeCell

/-- `MemWrite(TAPE, CP, 1, v)`: a store to the current cell. -/
def State.writeCur (s : State) (v : Byte) : State := s.writeTape s.cp v

/-- `a mod 256` of an integer, as a cell value (R7). -/
def wrap (a : Int) : Byte := BitVec.ofInt 8 (a % 256)

/-- `(v + 1) mod 256`, the value that `INC` writes (R100, R102). -/
def incCell (v : Byte) : Byte := wrap ((v.toNat : Int) + 1)

/-- `(v - 1) mod 256`, the value that `DEC` writes (R101, R102). -/
def decCell (v : Byte) : Byte := wrap ((v.toNat : Int) - 1)

/-- The value that a unit delivers: `Valid(u)` holds "exactly when `len(u) = 1` and `u[0] <= 255`", and the value
stored is then the code point itself (R118). -/
def validValue : InputUnit → Option Byte
  | [] => none
  | [c] => if c ≤ 255 then some (BitVec.ofNat 8 c) else none
  | _ :: _ :: _ => none

end Sys2Proof.Machine
end

