-- ==== Sys2Proof/Machine/Flags.lean ====
section
/-! DEFINITION. The conditions. There are no flags (spec/10_state.md R28): the only condition the machine tests is
whether the current cell is zero, computed when `[` or `]` executes, and nothing stores it. The branch report of the
debug trace is computed from the same test (spec/60_exceptions.md R145). -/

namespace Sys2Proof.Machine

/-- The one condition of the machine: "if current cell == 0" (R28). -/
def isZero (v : Byte) : Bool := v == 0

/-- Whether `[` jumps on the cell value `v` (R110). -/
def loopsTaken (v : Byte) : Bool := isZero v

/-- Whether `]` jumps on the cell value `v` (R111). -/
def loopeTaken (v : Byte) : Bool := !isZero v

/-- The branch report (R145): `skip` or `enter` for `[`, `reenter` or `finish` for `]`, `none` for the other
instructions. Where the current cell does not exist the instruction itself stops and no report is made. -/
def branchOf (i : Instr) (s : State) : Branch :=
  match i with
  | .loops => match s.cur with
    | some v => if loopsTaken v then .skip else .enter
    | none => .none
  | .loope => match s.cur with
    | some v => if loopeTaken v then .reenter else .finish
    | none => .none
  | .inc => .none
  | .input => .none
  | .dec => .none
  | .out => .none
  | .left => .none
  | .right => .none
  | .nop _ => .none

end Sys2Proof.Machine
end

