-- ==== Sys2Proof/Machine/Arithmetic.lean ====
section
/-! DEFINITION. Cell arithmetic (spec/42_cell_arithmetic.md): `INC` and `DEC`. -/

namespace Sys2Proof.Machine

/-- `INC`, character `+` (R100): the current cell plus one, modulo 256; then the advance. -/
def execInc (s : State) : Result :=
  s.withCur fun v => .next (s.writeCur (incCell v)).advance

/-- `DEC`, character `-` (R101): the current cell minus one, modulo 256; then the advance. -/
def execDec (s : State) : Result :=
  s.withCur fun v => .next (s.writeCur (decCell v)).advance

end Sys2Proof.Machine
end

