-- ==== Sys2Proof/Machine/Control.lean ====
section
/-! DEFINITION. The inert character, `NOP` (spec/41_execution_loop.md R93). -/

namespace Sys2Proof.Machine

/-- `NOP`, any inert character (R93): no action, then the advance; "the whole step is `IP <- IP + 1`". -/
def execNop (s : State) : Result := .next s.advance

end Sys2Proof.Machine
end

