-- ==== Sys2Proof/Machine/InOut.lean ====
section
/-! DEFINITION. Character I/O (spec/45_io.md): `OUT`, and `IN` with its validation protocol. -/

namespace Sys2Proof.Machine

/-- `OUT`, character `.` (R116): emits the current cell's value as one `OUT` event; then the advance. -/
def execOut (s : State) : Result :=
  s.withCur fun v => .next (s.emit (.out v)).advance

/-- The accepting branch of R117: store the code point in the current cell, `INWAIT <- 0`, and the advance. -/
def State.acceptInput (s : State) (v : Byte) : State := ((s.writeCur v).setInwait false).advance

/-- The rejecting branch of R117: `DIAG`, `INWAIT <- 1`; `IP` is not advanced, so that the next step executes this `,`
again (R94, R120). -/
def State.rejectInput (s : State) : State := (s.emit .diag).setInwait true

/-- `IN`, character `,` (R117): takes one input unit; a valid one is stored and completes the instruction, an invalid
one is answered with a diagnostic and retried. With no unit there is no step (R122). `env` hands over the units of an
endless input. -/
def execInFrom (env : Environment) (s : State) : Result :=
  match s.inTakeFrom env with
  | none => .fault .inputWait
  | some (u, s') =>
    match validValue u with
    | some v => s'.withCur fun _ => .next (s'.acceptInput v)
    | none => .next s'.rejectInput

/-- `IN` in the host's machine: the environment of an endless input is left open (log 3). -/
def execIn (s : State) : Result := execInFrom Config.endlessUnit s

end Sys2Proof.Machine
end

