-- ==== Sys2Proof/Machine/Loops.lean ====
section
/-! DEFINITION. Loop control (spec/44_loop_control.md): `LOOPS` and `LOOPE`. A taken jump sets `IP` to the partner's
position, and the advance that every completed operation makes moves one past it (R94, R112). -/

namespace Sys2Proof.Machine

/-- `IP <- JT[IP]` when the jump is taken (R110, R111). -/
def State.jumpIf (s : State) (taken : Bool) : State :=
  if taken then s.setIp (s.jumpEntry s.ip) else s

/-- `LOOPS`, character `[` (R110): jumps when the current cell is 0. -/
def execLoops (s : State) : Result :=
  s.withCur fun v => .next (s.jumpIf (loopsTaken v)).advance

/-- `LOOPE`, character `]` (R111): jumps when the current cell is not 0. -/
def execLoope (s : State) : Result :=
  s.withCur fun v => .next (s.jumpIf (loopeTaken v)).advance

end Sys2Proof.Machine
end

