-- ==== Sys2Proof/Machine/Pointer.lean ====
section
/-! DEFINITION. Pointer moves (spec/43_pointer_moves.md): `RIGHT` and `LEFT`, with the two faults they raise. -/

namespace Sys2Proof.Machine

/-- The condition of `TapeLimit` (R108): the move needs a cell at index `TAPE_MAX`. Never true when
`TAPE_MAX = INF`. -/
def State.atTapeLimit (s : State) : Bool := decide (s.cp + 1 = s.tlen ∧ s.tapeMax = some s.tlen)

/-- The statement `if CP == TLEN: TapeAppend(0)` of R104. -/
def State.extendTape (s : State) : State := if s.cp = s.tlen then s.tapeAppend else s

/-- `RIGHT`, character `>` (R104): one index to the right, appending a zero cell exactly when the pointer reaches the
tape's length; at a finite limit the `TapeLimit` fault is taken instead (R108). -/
def execRight (s : State) : Result :=
  if s.atTapeLimit then .next (s.raise .tapeLimit codeRight s.ip)
  else .next ((s.setCp (s.cp + 1)).extendTape).advance

/-- `LEFT`, character `<` (R105): one index to the left; at index 0 the `NegativeTapeIndex` fault is taken, whatever
the tape (R106). -/
def execLeft (s : State) : Result :=
  if s.cp = 0 then .next (s.raise .negativeTapeIndex codeLeft s.ip)
  else .next (s.setCp (s.cp - 1)).advance

end Sys2Proof.Machine
end

