-- ==== Sys2Proof/Machine/Dispatch.lean ====
section
/-! DEFINITION. The dispatch of spec/41_execution_loop.md R91: one meaning for each decode class. Each meaning is the
operation together with the advance that follows it when it completed (R94). -/

namespace Sys2Proof.Machine

def exec (i : Instr) (s : State) : Host.Outcome State Fault Refusal :=
  match i with
  | .inc => Sys2Proof.Machine.execInc s
  | .input => Sys2Proof.Machine.execIn s
  | .dec => Sys2Proof.Machine.execDec s
  | .out => Sys2Proof.Machine.execOut s
  | .left => Sys2Proof.Machine.execLeft s
  | .right => Sys2Proof.Machine.execRight s
  | .loops => Sys2Proof.Machine.execLoops s
  | .loope => Sys2Proof.Machine.execLoope s
  | .nop _ => Sys2Proof.Machine.execNop s

end Sys2Proof.Machine
end

