-- ==== Sys2Proof/Machine/Trace.lean ====
section
/-! DEFINITION. Debug mode (spec/60_exceptions.md R142 to R145): the two trace events. They are the only readers of
`DEBUG`. Both are structured reports; no text is modelled (U2, U4). -/

namespace Sys2Proof.Machine

/-- `TRACE_PROGRAM(PROG)`, emitted at the `RESOLVE -> RUN` transition when `DEBUG = 1` (R83, R143). -/
def State.traceProgram (s : State) : State :=
  if s.debug then s.emit (.traceProgram s.text) else s

/-- `TRACE_STEP(tape, cp, ch, branch)` for the fetched character `c`, emitted before the operation when it is one of
the eight instructions, `DEBUG = 1` and `INWAIT = 0` (R91, R95, R144). -/
def State.traceStep (s : State) (c : Byte) : State :=
  if (decodeCell c).recognised && s.debug && !s.inwait then
    s.emit (.traceStep s.tapeCells s.cp c (branchOf (decodeCell c) s))
  else s

end Sys2Proof.Machine
end

