-- ==== Sys2Proof/Machine/Resolver.lean ====
section
/-! DEFINITION. The Bracket Resolver (spec/40_bracket_resolver.md): the step of phase `RESOLVE`, one definition for
each of the rules R79 to R84, and the function `Resolve(PROG)` of R85 that the whole phase computes. -/

namespace Sys2Proof.Machine

/-- R79, an opener: "push its position". -/
def State.scanOpener (s : State) : State := (s.push s.rs).scanNext

/-- R80, a closer whose partner is `i`: pop `i`, record `JT[i] = j` and `JT[j] = i` where `j` is `RS`. -/
def State.scanCloser (s : State) (i : Nat) : State :=
  ((s.pop.setEntry i s.rs).setEntry s.rs i).scanNext

/-- R81, a closer without a partner: `raise UnmatchedBracket(char = ], pos = RS)`. -/
def State.scanUnmatchedCloser (s : State) : State := s.raise .unmatchedBracket codeLoope s.rs

/-- R82, any other character. -/
def State.scanOther (s : State) : State := s.scanNext

/-- R83, end of scan with an empty stack: `TRACE_PROGRAM` in debug mode, then `PHASE <- RUN`. -/
def State.scanSuccess (s : State) : State := s.traceProgram.setPhase .run

/-- R84, end of scan with an opener left over: `raise UnmatchedBracket(char = [, pos = bottom(STK))`. -/
def State.scanLeftOver (s : State) (b : Nat) : State := s.raise .unmatchedBracket codeLoops b

/-- R78: exactly one of the rules R79 to R84 applies in every `RESOLVE` state. `readProg` answers a character exactly
when `RS < PLEN`. -/
def State.scan (s : State) : State :=
  match s.readProg s.rs with
  | some c =>
    if c = codeLoops then s.scanOpener
    else if c = codeLoope then
      match s.top with
      | some i => s.scanCloser i
      | none => s.scanUnmatchedCloser
    else s.scanOther
  | none =>
    match s.bottom with
    | none => s.scanSuccess
    | some b => s.scanLeftOver b

/-- The value of `Resolve(PROG)` (R85). -/
inductive ResolveResult where
  /-- `ok(JT)`. -/
  | ok (jt : JumpTable)
  /-- `fail(char, pos)`. -/
  | fail (ch : Byte) (pos : Nat)
  deriving DecidableEq, Repr

/-- The loop of R85 from position `j` on, with the stack and the table it has built so far. -/
def resolveFrom : List Byte → Nat → List Nat → JumpTable → ResolveResult
  | [], _, stk, jt =>
    match stk.head? with
    | none => .ok jt
    | some b => .fail codeLoops b
  | c :: rest, j, stk, jt =>
    if c = codeLoops then resolveFrom rest (j + 1) (stk ++ [j]) jt
    else if c = codeLoope then
      match stk.getLast? with
      | none => .fail codeLoope j
      | some i => resolveFrom rest (j + 1) stk.dropLast (Assoc.set (Assoc.set jt i j) j i)
    else resolveFrom rest (j + 1) stk jt

/-- `Resolve(PROG)` of R85. -/
def resolveText (text : List Byte) : ResolveResult := resolveFrom text 0 [] []

end Sys2Proof.Machine
end

