-- ==== Sys2Proof/Machine/Engine.lean ====
section
/-! DEFINITION. The step rules: one `RUN` step of the Execution Engine (spec/41_execution_loop.md R91, R96), one
`RESOLVE` step of the Bracket Resolver (spec/40_bracket_resolver.md R78), and the step that chooses among them
(spec/00_scope.md R9), in any environment of an endless input. -/

namespace Sys2Proof.Machine

/-- The fetch of R91: `MemRead(PROG, IP, 1)`. -/
def State.fetch (s : State) : Option Byte := s.readProg s.ip

/-- The halt step (R96): `PHASE <- HALT`, nothing else, and no event. -/
def State.completeRun (s : State) : State := s.setPhase .halt

/-- The dispatch of R91 in the environment `env`: the meanings of `exec`, with `IN` taking its units from `env`. It is
the only instruction that takes anything from outside the state (R9). -/
def execFrom (env : Environment) (i : Instr) (s : State) : Result :=
  match i with
  | .inc => execInc s
  | .input => execInFrom env s
  | .dec => execDec s
  | .out => execOut s
  | .left => execLeft s
  | .right => execRight s
  | .loops => execLoops s
  | .loope => execLoope s
  | .nop _ => execNop s

/-- One `RUN` step (R91) with the dispatch `meaning`: halt at `IP == PLEN`; otherwise fetch, decode, trace, dispatch, and
the advance that the meaning makes when its operation completed. -/
def runStep (meaning : Instr → State → Result) (s : State) : Result :=
  if s.ip = s.plen then .next s.completeRun
  else
    match s.fetch with
    | some c => meaning (decodeCell c) (s.traceStep c)
    | none => .fault .noSuchProgramCell

/-- One `RESOLVE` step (R78): it always has a next state. -/
def resolveStep (s : State) : Result := .next s.scan

/-- One step (R9) with the dispatch `meaning`: a `RESOLVE` step, a `RUN` step, or none: "In phases `HALT` and `FAULT`
there is no step". -/
def stepBy (meaning : Instr → State → Result) (s : State) : Result :=
  match s.phase with
  | .resolve => resolveStep s
  | .run => runStep meaning s
  | .halt => .fault .runHalted
  | .fault => .fault .runFaulted

/-- The step in the environment `env`: the machine with every argument of R6, an infinite `INQ` of any units among
them. -/
def stepFrom (env : Environment) (s : State) : Result := stepBy (execFrom env) s

/-- The state with the cell at `IP` holding `c`, `PROG` long enough to reach it, and the engine running: what placing
one instruction where the next fetch reads it takes. Assumption log 5. -/
def State.placeCell (s : State) (c : Byte) : State :=
  { s with phase := .run, prog := s.prog.write s.ip c, plen := max s.plen (s.ip + 1) }

end Sys2Proof.Machine
end

