-- ==== Sys2Proof/Machine/Step.lean ====
section
/-! DEFINITION. The step of the machine (spec/00_scope.md R9): one application of exactly one step rule, chosen by
`PHASE`. -/

namespace Sys2Proof.Machine

/-- One step (R9) of the host's machine, with the dispatch `exec`: `stepFrom` in the open environment of log 3. -/
def step (s : State) : Host.Outcome State Fault Refusal := stepBy exec s

/-- The host's placing of one opcode-table word where the next step fetches: the first cell of the word at `IP`, the
program loaded and resolved, the engine running. Assumption log 5. -/
def State.withFetchWord (s : State) (nbits w : Nat) : State :=
  s.placeCell (BitVec.ofNat 8 (w % 2 ^ nbits))

end Sys2Proof.Machine
end

