-- ==== Sys2Proof/Machine/Launch.lean ====
section
/-! DEFINITION. The host interface (spec/70_reset_and_hazards.md): what the outside world does to the machine. None of
these is a step: the host acts while the machine is held in reset (R152), a reset may come at any step boundary (R150,
R155), and an input unit may arrive between steps (R148, R153). A session holds what the outside has of several runs. -/

namespace Sys2Proof.Machine

/-- What the host supplies before it releases reset (R152): the program text, one character per position from 0, the
debug flag and the tape's capacity. -/
def State.load (s : State) (text : List Byte) (debug : Bool) (tapeMax : Option Nat) : State :=
  { s with prog := Memory.load 0 text, plen := text.length, debug := debug, tapeMax := tapeMax }

/-- Reset (R150): every state element to its value of R32, `INQ` to the input supplied for this run; `PROG`, `PLEN`,
`DEBUG` and `TAPE_MAX` are not changed. -/
def State.restart (s : State) (input : InputQueue) : State :=
  { State.reset with
    prog := s.prog, plen := s.plen, debug := s.debug, tapeMax := s.tapeMax, inq := input }

/-- The first state of a run (R32, R151): the program loaded, then reset released. -/
def State.launch (text : List Byte) (debug : Bool) (tapeMax : Option Nat) (input : InputQueue) : State :=
  (State.reset.load text debug tapeMax).restart input

/-- An input without end that nothing stands before: the units number `0, 1, ...` of the environment (R6). -/
def InputQueue.infinite : InputQueue := { given := [], endless := some 0 }

/-- The machine in the environment `env`: the machine of the host with `stepFrom env` for its step. A run on a chosen
infinite `INQ` is a run of this machine from a launch with `InputQueue.infinite`. -/
def coreFrom (env : Environment) : Host.Core where
  State := State
  Fault := Fault
  Refusal := Refusal
  step := stepFrom env
  reset := State.reset

/-- An input unit arrives behind those already there (R148, R153). An infinite `INQ` has no end for it to stand at. -/
def InputQueue.supply (q : InputQueue) (u : InputUnit) : InputQueue :=
  match q.endless with
  | none => { q with given := q.given ++ [u] }
  | some _ => q

/-- The environment hands over one more input unit. -/
def State.supply (s : State) (u : InputUnit) : State := s.setInq (s.inq.supply u)

/-- The code points of the `OUT` events among `es`, in order. -/
def outputOf (es : List Event) : List Byte :=
  es.filterMap fun e =>
    match e with
    | .out v => some v
    | .diag => none
    | .traceProgram _ => none
    | .traceStep _ _ _ _ => none

/-- The trace events among `es`, in order. -/
def tracesOf (es : List Event) : List Event :=
  es.filter fun e =>
    match e with
    | .out _ => false
    | .diag => false
    | .traceProgram _ => true
    | .traceStep _ _ _ _ => true

/-- The program's output: "the subsequence of `OUT` events" of `HIST` (R24, R156), as code points. -/
def State.output (s : State) : List Byte := outputOf s.hist

/-- The trace events of `HIST`, in order. When trace and output are carried on separate streams a claim may rely on the
order within each of them only (R147, U1). -/
def State.traceEvents (s : State) : List Event := tracesOf s.hist

/-- What the host reads of a fault: the error record, in phase `FAULT` only (R131, R153). -/
def State.report (s : State) : Option (Cause × Byte × Nat) :=
  match s.phase with
  | .fault => some (s.ecause, s.echar, s.epos)
  | .resolve => none
  | .run => none
  | .halt => none

/-! ### Several runs, seen from outside -/

/-- The machine with what is outside it: the events of the runs that a reset has ended. They are no state of the machine,
whose `HIST` a reset empties (R13, R32); they "have been delivered and are not withdrawn" (R155). Assumption log 20. -/
structure Session where
  /-- The events delivered in earlier runs, oldest first. -/
  earlier : List Event
  /-- The machine in its present run. -/
  machine : State
  deriving DecidableEq, Repr

/-- Everything delivered so far: the events of the earlier runs, then those of the present one (R154, R155). -/
def Session.delivered (x : Session) : List Event := x.earlier ++ x.machine.hist

/-- The external kill (R155): a reset at a step boundary of any phase, with the input of the next run. -/
def Session.kill (x : Session) (input : InputQueue) : Session :=
  { earlier := x.delivered, machine := x.machine.restart input }

/-- A reset with another program loaded while the machine is held in it (R152). -/
def Session.relaunch (x : Session) (text : List Byte) (debug : Bool) (tapeMax : Option Nat) (input : InputQueue) :
    Session :=
  { earlier := x.delivered, machine := State.launch text debug tapeMax input }

/-- What can happen at a step boundary. -/
inductive Action where
  /-- The machine takes its step. -/
  | step
  /-- The host kills the run (R155). -/
  | kill (input : InputQueue)
  /-- The host resets the machine with a program (R150, R152). -/
  | relaunch (text : List Byte) (debug : Bool) (tapeMax : Option Nat) (input : InputQueue)
  /-- An input unit arrives (R153). -/
  | supply (u : InputUnit)
  deriving DecidableEq, Repr

/-- One action in the environment `env`. Where the machine has no step, nothing happens. -/
def Session.act (env : Environment) (x : Session) : Action → Session
  | .step =>
    match stepFrom env x.machine with
    | .next t => { x with machine := t }
    | .fault _ => x
    | .refused _ => x
  | .kill input => x.kill input
  | .relaunch text debug tapeMax input => x.relaunch text debug tapeMax input
  | .supply u => { x with machine := x.machine.supply u }

/-- Actions one after another. -/
def Session.acts (env : Environment) (x : Session) (as : List Action) : Session := as.foldl (Session.act env) x

end Sys2Proof.Machine
end

