-- ==== Sys2Proof/Safety.lean ====
section
/-! DEFINITION. The words that the statements are written in: what a step keeps (frames), how a run ends, the launch
premises of spec/70_reset_and_hazards.md R156, well-formed program texts (spec/30_encoding.md R71), the input seen as
a sequence, and the machine's invariant (spec/10_state.md R31 with what the rules it cites need). -/

namespace Sys2Proof.Safety

open Sys2Proof.Machine

/-! ### Frames: what is the same in two states -/

/-- `PROG`, `PLEN`, `DEBUG` and `TAPE_MAX`: what no step may change (R15, R16, R153). -/
def KeepsProgram (s t : State) : Prop :=
  t.prog = s.prog ∧ t.plen = s.plen ∧ t.debug = s.debug ∧ t.tapeMax = s.tapeMax

/-- `RS`, `STK` and `JT`: the resolver's registers and the Jump Table. -/
def KeepsResolver (s t : State) : Prop :=
  t.rs = s.rs ∧ t.stk = s.stk ∧ t.jt = s.jt

/-- `ECAUSE`, `ECHAR` and `EPOS`. -/
def KeepsErrorRecord (s t : State) : Prop :=
  t.ecause = s.ecause ∧ t.echar = s.echar ∧ t.epos = s.epos

/-- `INQ` and `INWAIT`: the input side. -/
def KeepsInput (s t : State) : Prop :=
  t.inq = s.inq ∧ t.inwait = s.inwait

/-- `TLEN` and every tape cell but the one at index `a`. -/
def KeepsTapeExcept (a : Nat) (s t : State) : Prop :=
  t.tlen = s.tlen ∧ ∀ b, b ≠ a → t.readTape b = s.readTape b

/-- `TLEN` and every tape cell. -/
def KeepsTape (s t : State) : Prop :=
  t.tlen = s.tlen ∧ ∀ b, t.readTape b = s.readTape b

/-! ### The end of a run -/

/-- "The end of a run is defined as: the first state with `PHASE = HALT` or `PHASE = FAULT`" (R154). -/
def RunEnded (s : State) : Prop := s.phase = .halt ∨ s.phase = .fault

/-- No step rule applies although the run has not ended: "stuck" (R12). -/
def Stuck (s : State) : Prop := ¬ RunEnded s ∧ ∀ t, step s ≠ .next t

/-- The conditions a safe run meets: no fault has been taken (`NoFault` of R156). -/
def NoFault (s : State) : Prop := s.ecause = .none

/-- `CleanEntry` (R156): the reset values of R32 hold. -/
def CleanEntry (s : State) : Prop := s = s.restart s.inq

/-- `ProgramLoaded` (R156): `PROG` and `PLEN` are the text `text`. -/
def ProgramLoaded (text : List Byte) (s : State) : Prop :=
  s.prog = Memory.load 0 text ∧ s.plen = text.length

/-- `DebugFixed` (R156): `DEBUG` is `debug`. No step writes it (R16) and the host must not (R153, log 15), so that it is
fixed for the run. -/
def DebugFixed (debug : Bool) (s : State) : Prop := s.debug = debug

/-- `InputGiven` (R156): `INQ` is the stated sequence, with the units of the environment where it is endless. -/
def InputGiven (q : InputQueue) (s : State) : Prop := s.inq = q

/-- How a realisation carries the events to the outside: what has been received in all, over the present run and those
before it. An argument of a claim (`SingleStream` is a parameter, 93_implementation_defined.md U1). -/
abbrev Delivery := Session → List Event

/-- What every realisation owes, whatever its streams (R147, R154): all events are delivered, those of a killed run
included (R155), and the order of `OUT` events among themselves, and of trace events among themselves, is that of
`HIST`. The order between events of different kinds is left open (log 12). -/
structure Delivers (d : Delivery) : Prop where
  /-- The `OUT` events, in program order. -/
  output : ∀ x, outputOf (d x) = outputOf x.delivered
  /-- The trace events, in program order. -/
  traces : ∀ x, tracesOf (d x) = tracesOf x.delivered
  /-- As many diagnostics as were emitted (R120). -/
  diagnostics : ∀ x, (d x).count .diag = x.delivered.count .diag

/-- `SingleStream` (R156): "trace and output are carried on one stream, so the order of `HIST` across event kinds is
meaningful". -/
def SingleStream (d : Delivery) : Prop := ∀ x, d x = x.delivered

/-! ### The input as a sequence -/

/-- Unit number `n` of the units still to come in the environment `env`, 0 being the next one (R25); none past the end
of a finite input. -/
def unitFrom (env : Environment) (q : InputQueue) (n : Nat) : Option InputUnit :=
  match q.given[n]? with
  | some u => some u
  | none => q.endless.map fun k => env (k + (n - q.given.length))

/-- Unit number `n` of the units still to come in the host's machine, whose environment is open (log 3). -/
def unitAt (q : InputQueue) (n : Nat) : Option InputUnit := unitFrom Config.endlessUnit q n

/-- The finite input that consists of the first `m` units of `env`. -/
def firstUnits (env : Environment) (m : Nat) : InputQueue := { given := (List.range m).map env, endless := none }

/-- `Valid(u)` (R118): "exactly when `len(u) = 1` and `u[0] <= 255`". -/
def ValidUnit (u : InputUnit) : Prop := ∃ c, u = [c] ∧ c ≤ 255

/-! ### Program texts -/

/-- How many `[` are among the first `n` characters. -/
def openers (text : List Byte) (n : Nat) : Nat := (text.take n).count codeLoops

/-- How many `]` are among the first `n` characters. -/
def closers (text : List Byte) (n : Nat) : Nat := (text.take n).count codeLoope

/-- A well-formed program text (R71): "every prefix has at least as many `[` as `]`, and the whole text has equally
many". -/
def WellFormedText (text : List Byte) : Prop :=
  (∀ n, closers text n ≤ openers text n) ∧ closers text text.length = openers text text.length

/-! ### The Jump Table -/

/-- Position `p` of `PROG` holds `[`. -/
def IsOpener (s : State) (p : Nat) : Prop := s.readProg p = some codeLoops

/-- Position `p` of `PROG` holds `]`. -/
def IsCloser (s : State) (p : Nat) : Prop := s.readProg p = some codeLoope

/-- The table `JT` is right for the brackets below position `n` whose unmatched openers are `stk` (R31 items 5 and 6,
R86). With `n = PLEN` and nothing unmatched it is the complete table. -/
structure TableSound (s : State) (n : Nat) (stk : List Nat) : Prop where
  /-- `JT` has an entry exactly at the brackets below `n` that are not waiting for a partner. -/
  domain : ∀ p, (∃ q, Assoc.get s.jt p = some q) ↔ (p < n ∧ (IsOpener s p ∨ IsCloser s p) ∧ p ∉ stk)
  /-- The two entries of a pair name each other, and the `[` stands before the `]`. -/
  pairing : ∀ p q, Assoc.get s.jt p = some q → Assoc.get s.jt q = some p ∧
    ((IsOpener s p ∧ IsCloser s q ∧ p < q) ∨ (IsCloser s p ∧ IsOpener s q ∧ q < p))
  /-- Two pairs are disjoint or nested, never overlapping. -/
  nesting : ∀ i j i' j', Assoc.get s.jt i = some j → i < j → Assoc.get s.jt i' = some j' → i' < j' → i < i' →
    j < i' ∨ j' < j
  /-- No matched pair encloses an unmatched opener. -/
  openOutside : ∀ p, p ∈ stk → ∀ i j, Assoc.get s.jt i = some j → i < j → ¬ (i < p ∧ p < j)

/-! ### The invariant -/

/-- What holds in phase `RESOLVE` (R31 item 5, R32): the scan's own registers fit the text read so far, and the
engine's registers still hold their reset values. -/
structure Resolving (s : State) : Prop where
  scanInRange : s.rs ≤ s.plen
  stackRising : s.stk.Pairwise (· < ·)
  stackOpeners : ∀ p ∈ s.stk, p < s.rs ∧ IsOpener s p
  table : TableSound s s.rs s.stk
  engineFresh : s.ip = 0 ∧ s.cp = 0 ∧ s.tape = [] ∧ s.tlen = 1 ∧ s.hist = []

/-- The invariant of the machine: R31 item by item, with the canonical form of the two memories and of `JT`, and the
tape's capacity (R109). -/
structure Inv (s : State) : Prop where
  /-- `PROG` is in canonical form and lists no position from `PLEN` on. -/
  progCanonical : Memory.wf s.prog ∧ ∀ e ∈ s.prog, e.1 < s.plen
  /-- `TAPE` is in canonical form and lists no cell that does not exist (R45). -/
  tapeCanonical : Memory.wf s.tape ∧ ∀ e ∈ s.tape, e.1 < s.tlen
  /-- `JT` is in canonical form. -/
  tableCanonical : Assoc.Rising s.jt
  /-- R31 items 1 and 2: `0 <= CP < TLEN`, so `TLEN >= 1`. -/
  pointerInTape : s.cp < s.tlen
  /-- R109: `TLEN <= TAPE_MAX`. -/
  tapeWithinCapacity : ∀ m, s.tapeMax = some m → s.tlen ≤ m
  /-- R31 item 5. -/
  resolving : s.phase = .resolve → Resolving s
  /-- R31 item 6. -/
  tableComplete : s.phase = .run ∨ s.phase = .halt → TableSound s s.plen []
  /-- R31 item 4, R98. -/
  ipInRange : s.phase = .run → s.ip ≤ s.plen
  /-- R31 item 4. -/
  ipAtEnd : s.phase = .halt → s.ip = s.plen
  /-- R31 item 7: `ECAUSE` is 0 exactly outside phase `FAULT`. -/
  causeIffFault : s.ecause ≠ .none ↔ s.phase = .fault
  /-- R26: `ECHAR` and `EPOS` are 0 when `ECAUSE` = 0. -/
  recordClear : s.ecause = .none → s.echar = 0 ∧ s.epos = 0
  /-- R23, R31 item 7: `INWAIT = 1` only while the engine is at a `,`. -/
  waitingAtInput : s.inwait = true → s.phase = .run ∧ s.fetch = some codeIn

/-! ### Debug mode as an observer -/

/-- The events that are not trace events: `OUT` and `DIAG`. -/
def Event.untraced : Event → Bool
  | .out _ => true
  | .diag => true
  | .traceProgram _ => false
  | .traceStep _ _ _ _ => false

/-- A state without what debug mode adds: the flag off and no trace event in `HIST`. Two states with the same
`withoutTrace` differ at most in debug mode (R146). -/
def withoutTrace (s : State) : State := { s with debug := false, hist := s.hist.filter Event.untraced }

/-- Two answers that agree but for debug mode: next states that differ at most in it, or the same reason to stop. -/
def sameButTrace : Result → Result → Prop
  | .next s, .next t => withoutTrace s = withoutTrace t
  | .fault r, .fault r' => r = r'
  | .refused r, .refused r' => r = r'
  | .next _, .fault _ => False
  | .next _, .refused _ => False
  | .fault _, .next _ => False
  | .fault _, .refused _ => False
  | .refused _, .next _ => False
  | .refused _, .fault _ => False

/-! ### The input as an argument -/

/-- A state without the input still to come. -/
def withoutInput (s : State) : State := { s with inq := { given := [], endless := none } }

/-- Two answers that agree but for the input still to come: next states that differ at most in it, or the same reason to
stop. -/
def sameButInput : Result → Result → Prop
  | .next s, .next t => withoutInput s = withoutInput t
  | .fault r, .fault r' => r = r'
  | .refused r, .refused r' => r = r'
  | .next _, .fault _ => False
  | .next _, .refused _ => False
  | .fault _, .next _ => False
  | .fault _, .refused _ => False
  | .refused _, .next _ => False
  | .refused _, .fault _ => False

/-! ### Sequences of instructions -/

/-- The meanings of `is` one after another. -/
def execAll : List Instr → State → Result
  | [], s => .next s
  | i :: is, s =>
    match exec i s with
    | .next t => execAll is t
    | .fault r => .fault r
    | .refused r => .refused r

end Sys2Proof.Safety
end

