-- ==== Sys2Proof/Certificates/Slice0/Obligations.lean ====
section
/-! DEFINITION. The statements for the provers, from the numbered rules of spec/. Where a statement rests on a choice of
the model its docstring says so and names the log entry. -/

open Sys2Proof Sys2Proof.Machine Sys2Proof.Safety

/-! ### Encoding -/

/-- R62 to R64: the decoder gives each of the eight codes its instruction and every other cell value a `NOP`. The eight
numbers rest on log 11 (R62 marks them as general knowledge, GK1, D20), and that `nop` carries its cell, so that every
decoded cell encodes back to itself, on log 13. -/
def Obligations.DecoderClassifiesEveryCell : Prop :=
  (decodeCell 0x2B = .inc ∧ decodeCell 0x2C = .input ∧ decodeCell 0x2D = .dec ∧ decodeCell 0x2E = .out ∧
    decodeCell 0x3C = .left ∧ decodeCell 0x3E = .right ∧ decodeCell 0x5B = .loops ∧ decodeCell 0x5D = .loope) ∧
  (∀ c : Byte, isInert c = true → decodeCell c = .nop c) ∧
  (∀ c : Byte, (decodeCell c).wellFormed = true ∧ encodeCell (decodeCell c) = c)

/-- R60: decoding the encoding of a well-formed instruction, followed by anything, gives the instruction back and leaves
what follows. That a `NOP` comes back with its cell rests on log 13. -/
def Obligations.DecodeOfEncodeIsInstruction : Prop :=
  ∀ (i : Instr) (rest : List Byte), i.wellFormed = true → decode (encode i ++ rest) = .ok (i, rest)

/-- R60, R68: program texts and sequences of well-formed instructions are the same thing: one cell an instruction, in
order. That neither direction loses anything rests on the model's choice that `nop` carries its inert cell (log 13): R63 and
R64 give one class `NOP` for all 248 inert values. -/
def Obligations.TextAndInstructionsAgree : Prop :=
  (∀ is : List Instr, (∀ i ∈ is, i.wellFormed = true) →
    disassemble (assemble is) = is ∧ (assemble is).length = is.length) ∧
  (∀ text : List Byte, assemble (disassemble text) = text ∧ (∀ i ∈ disassemble text, i.wellFormed = true) ∧
    (disassemble text).length = text.length)

/-! ### The step -/

/-- R91, R95: in phase `RUN`, when the cell at `IP` decodes to `i`, the step is the meaning of `i` on the state whose
history has gained the `TRACE_STEP` event, or on the state itself when nothing is traced. The advance is part of the
meaning. -/
def Obligations.StepRunsDecodedInstruction : Prop :=
  ∀ (s : State) (c : Byte) (i : Instr), s.phase = .run → s.fetch = some c → decodeCell c = i →
    ((i.recognised = true ∧ s.debug = true ∧ s.inwait = false) →
      step s = exec i { s with hist := s.hist ++ [.traceStep s.tapeCells s.cp c (branchOf i s)] }) ∧
    (¬ (i.recognised = true ∧ s.debug = true ∧ s.inwait = false) → step s = exec i s)

/-- R96: at `IP == PLEN` the step is the halt: `PHASE <- HALT`, nothing else, no event; after it there is no step; and no
other step halts. -/
def Obligations.HaltOnlyAtEndOfProgram : Prop :=
  (∀ s : State, s.phase = .run → s.ip = s.plen →
    step s = .next { s with phase := .halt } ∧ ∀ t, step { s with phase := .halt } ≠ .next t) ∧
  (∀ s t : State, step s = .next t → t.phase = .halt → s.phase = .run ∧ s.ip = s.plen)

/-- R9: in phases `HALT` and `FAULT` there is no step, and each says by name that the run is over (log 2). -/
def Obligations.NoStepAfterTheEnd : Prop :=
  ∀ s : State, (s.phase = .halt → step s = .fault .runHalted) ∧ (s.phase = .fault → step s = .fault .runFaulted)

/-- The host's placing of a word (log 5): the very next step runs the instruction that the decoder reads from the word. -/
def Obligations.PlacedWordRunsNext : Prop :=
  ∀ (s : State) (nbits w : Nat) (i : Instr), s.debug = false → decodeTableWord nbits w = some i →
    step (s.withFetchWord nbits w) = exec i (s.withFetchWord nbits w)

/-- R65, R137: no instruction is refused, in any state, and neither is any step. -/
def Obligations.NothingIsRefused : Prop :=
  (∀ (i : Instr) (s : State) (r : Refusal), exec i s ≠ .refused r) ∧ (∀ (s : State) (r : Refusal), step s ≠ .refused r)

/-! ### The instructions -/

/-- R93: a `NOP` has a next state from every state, and it is the same state but for `IP + 1`; its whole step makes no
event, in debug mode either. -/
def Obligations.NopOnlyAdvances : Prop :=
  ∀ (s : State) (c : Byte), exec (.nop c) s = .next { s with ip := s.ip + 1 } ∧
    (s.phase = .run → s.fetch = some c → isInert c = true → step s = .next { s with ip := s.ip + 1 })

/-- R100: `INC` completes wherever the current cell exists: that cell becomes `(v + 1) mod 256`, `IP` advances, nothing
else changes, and 256 in a row restore the cell. -/
def Obligations.IncAddsOneModulo256 : Prop :=
  ∀ (s : State) (v : Byte), s.cur = some v →
    (∃ t, exec .inc s = .next t ∧ t.readTape s.cp = some (BitVec.ofNat 8 ((v.toNat + 1) % 256)) ∧
      KeepsTapeExcept s.cp s t ∧ t.ip = s.ip + 1 ∧ t.cp = s.cp ∧ t.phase = s.phase ∧ t.hist = s.hist ∧
      KeepsProgram s t ∧ KeepsResolver s t ∧ KeepsInput s t ∧ KeepsErrorRecord s t) ∧
    (∃ t, execAll (List.replicate 256 .inc) s = .next t ∧ t.cur = some v)

/-- R101: `DEC` completes wherever the current cell exists: that cell becomes `(v - 1) mod 256`, `IP` advances, nothing
else changes; `DEC` and `INC` undo each other. -/
def Obligations.DecSubtractsOneModulo256 : Prop :=
  ∀ (s : State) (v : Byte), s.cur = some v →
    (∃ t, exec .dec s = .next t ∧ t.readTape s.cp = some (BitVec.ofNat 8 ((v.toNat + 255) % 256)) ∧
      KeepsTapeExcept s.cp s t ∧ t.ip = s.ip + 1 ∧ t.cp = s.cp ∧ t.phase = s.phase ∧ t.hist = s.hist ∧
      KeepsProgram s t ∧ KeepsResolver s t ∧ KeepsInput s t ∧ KeepsErrorRecord s t) ∧
    (∃ t, execAll [.inc, .dec] s = .next t ∧ t.cur = some v) ∧
    (∃ t, execAll [.dec, .inc] s = .next t ∧ t.cur = some v)

/-- R102, the laws of the two operations on the machine itself: `n` times `INC` gives `(v + n) mod 256`, `n` times `DEC`
gives `(v - n) mod 256`, with every other cell as it was and `IP` moved by `n`. -/
def Obligations.RepeatedArithmeticIsModular : Prop :=
  ∀ (n : Nat) (s : State) (v : Byte), s.cur = some v →
    (∃ t w, execAll (List.replicate n .inc) s = .next t ∧ t.cur = some w ∧ w.toNat = (v.toNat + n) % 256 ∧
      KeepsTapeExcept s.cp s t ∧ t.cp = s.cp ∧ t.ip = s.ip + n ∧ t.hist = s.hist) ∧
    (∃ t w, execAll (List.replicate n .dec) s = .next t ∧ t.cur = some w ∧
      (w.toNat : Int) = ((v.toNat : Int) - n) % 256 ∧
      KeepsTapeExcept s.cp s t ∧ t.cp = s.cp ∧ t.ip = s.ip + n ∧ t.hist = s.hist)

/-- R104: `RIGHT` away from a finite limit completes: `CP + 1`; a zero cell is appended exactly when the old `CP` was
`TLEN - 1`; no existing cell changes; nothing else changes but `IP`; and `CP < TLEN` holds again. At the limit it takes
`TapeLimit` instead. -/
def Obligations.RightMovesAndExtends : Prop :=
  ∀ s : State,
    (¬ (s.cp + 1 = s.tlen ∧ s.tapeMax = some s.tlen) →
      ∃ t, exec .right s = .next t ∧ t.cp = s.cp + 1 ∧ t.ip = s.ip + 1 ∧
        (s.cp + 1 = s.tlen → t.tlen = s.tlen + 1 ∧ t.cur = some 0) ∧
        (s.cp + 1 ≠ s.tlen → t.tlen = s.tlen) ∧
        (∀ a, a < s.tlen → t.readTape a = s.readTape a) ∧
        (s.cp < s.tlen → t.cp < t.tlen) ∧
        t.phase = s.phase ∧ t.hist = s.hist ∧
        KeepsProgram s t ∧ KeepsResolver s t ∧ KeepsInput s t ∧ KeepsErrorRecord s t) ∧
    (s.cp + 1 = s.tlen ∧ s.tapeMax = some s.tlen →
      ∃ t, exec .right s = .next t ∧ t.phase = .fault ∧ t.ecause = .tapeLimit ∧ t.ip = s.ip)

/-- R108: `RIGHT` on the last cell of a tape of `TAPE_MAX` cells takes `TapeLimit` and changes nothing but the error
record and `PHASE`; with `TAPE_MAX = INF` it never does. -/
def Obligations.RightAtLimitTakesTapeLimit : Prop :=
  (∀ s : State, s.cp + 1 = s.tlen → s.tapeMax = some s.tlen →
    exec .right s =
      .next { s with ecause := .tapeLimit, echar := codeRight, epos := s.ip, phase := .fault }) ∧
  (∀ s t : State, s.tapeMax = none → exec .right s = .next t → t.phase = s.phase ∧ t.ecause = s.ecause)

/-- R105: `LEFT` with `CP` not 0 completes: `CP - 1`, `IP` advances, and nothing else changes, the tape included. With
`CP = 0` it takes `NegativeTapeIndex`, and only the error record and `PHASE` change. -/
def Obligations.LeftMovesPointer : Prop :=
  ∀ s : State,
    (s.cp ≠ 0 →
      ∃ t, exec .left s = .next t ∧ t.cp + 1 = s.cp ∧ t.ip = s.ip + 1 ∧ KeepsTape s t ∧
        t.phase = s.phase ∧ t.hist = s.hist ∧
        KeepsProgram s t ∧ KeepsResolver s t ∧ KeepsInput s t ∧ KeepsErrorRecord s t) ∧
    (s.cp = 0 → exec .left s =
      .next { s with ecause := .negativeTapeIndex, echar := codeLeft, epos := s.ip, phase := .fault })

/-- R106: executing `<` when `CP` is 0 always fails with `NegativeTapeIndex`, whatever the tape's length: the step of
the machine enters `FAULT`, the pointer stays at 0 and the tape as it is. -/
def Obligations.LeftAtZeroAlwaysFails : Prop :=
  ∀ s : State, s.phase = .run → s.fetch = some codeLeft → s.cp = 0 →
    ∃ t, step s = .next t ∧ t.phase = .fault ∧ t.ecause = .negativeTapeIndex ∧ t.echar = codeLeft ∧ t.epos = s.ip ∧
      t.cp = 0 ∧ t.ip = s.ip ∧ KeepsTape s t ∧ t.report = some (.negativeTapeIndex, codeLeft, s.ip)

/-- R110: `LOOPS` completes wherever the current cell exists: a zero cell jumps one past the partner, any other falls
through; only `IP` changes; the branch report names what happens. -/
def Obligations.LoopStartJumpsOnZero : Prop :=
  ∀ (s : State) (v : Byte), s.cur = some v →
    ∃ t, exec .loops s = .next t ∧
      (v ≠ 0 → t.ip = s.ip + 1 ∧ branchOf .loops s = .enter) ∧
      (v = 0 → branchOf .loops s = .skip ∧ ∀ q, Assoc.get s.jt s.ip = some q → t.ip = q + 1) ∧
      KeepsTape s t ∧ t.cp = s.cp ∧ t.phase = s.phase ∧ t.hist = s.hist ∧
      KeepsProgram s t ∧ KeepsResolver s t ∧ KeepsInput s t ∧ KeepsErrorRecord s t

/-- R111: `LOOPE` completes wherever the current cell exists: a non-zero cell jumps one past the partner, zero falls
through; only `IP` changes; the branch report names what happens. -/
def Obligations.LoopEndJumpsOnNonZero : Prop :=
  ∀ (s : State) (v : Byte), s.cur = some v →
    ∃ t, exec .loope s = .next t ∧
      (v = 0 → t.ip = s.ip + 1 ∧ branchOf .loope s = .finish) ∧
      (v ≠ 0 → branchOf .loope s = .reenter ∧ ∀ q, Assoc.get s.jt s.ip = some q → t.ip = q + 1) ∧
      KeepsTape s t ∧ t.cp = s.cp ∧ t.phase = s.phase ∧ t.hist = s.hist ∧
      KeepsProgram s t ∧ KeepsResolver s t ∧ KeepsInput s t ∧ KeepsErrorRecord s t

/-- R116: `OUT` completes wherever the current cell exists, for every value: exactly one `OUT` event with that value is
appended, `IP` advances, nothing else changes. -/
def Obligations.OutEmitsCurrentCell : Prop :=
  ∀ (s : State) (v : Byte), s.cur = some v →
    ∃ t, exec .out s = .next t ∧ t.hist = s.hist ++ [.out v] ∧ t.output = s.output ++ [v] ∧ t.ip = s.ip + 1 ∧
      KeepsTape s t ∧ t.cp = s.cp ∧ t.phase = s.phase ∧
      KeepsProgram s t ∧ KeepsResolver s t ∧ KeepsInput s t ∧ KeepsErrorRecord s t

/-- R117, R118: `IN` takes one unit. A valid one (one code point, at most 255) completes the instruction: the code point
is stored unchanged in the current cell, `INWAIT <- 0`, `IP` advances, no event. An invalid one (a length other than 1,
or a code point above 255) is answered with one `DIAG`, `INWAIT <- 1`, and `IP` and the tape stay. Nothing else
changes, and neither is a fault. -/
def Obligations.InputTakesOneUnit : Prop :=
  ∀ (s : State) (u : InputUnit), unitAt s.inq 0 = some u →
    (∀ c, u = [c] → c ≤ 255 → s.cp < s.tlen →
      ∃ t w, exec .input s = .next t ∧ t.readTape s.cp = some w ∧ w.toNat = c ∧
        (∀ n, unitAt t.inq n = unitAt s.inq (n + 1)) ∧ t.inwait = false ∧ t.ip = s.ip + 1 ∧
        KeepsTapeExcept s.cp s t ∧ t.cp = s.cp ∧ t.phase = s.phase ∧ t.hist = s.hist ∧
        KeepsProgram s t ∧ KeepsResolver s t ∧ KeepsErrorRecord s t) ∧
    ((u.length ≠ 1 ∨ ∃ c, u = [c] ∧ 255 < c) →
      ∃ t, exec .input s = .next t ∧ t.hist = s.hist ++ [.diag] ∧ t.inwait = true ∧
        (∀ n, unitAt t.inq n = unitAt s.inq (n + 1)) ∧ t.ip = s.ip ∧ t.cp = s.cp ∧ t.phase = s.phase ∧
        KeepsTape s t ∧ KeepsProgram s t ∧ KeepsResolver s t ∧ KeepsErrorRecord s t)

/-- R122, R148: with no unit left the machine is stuck at the `,`: no step, not halted, no fault taken; the arrival of a
valid unit lets the same instruction complete with that unit's code point. How the model names "no step" is its own
choice (log 1). -/
def Obligations.InputWaitsForUnit : Prop :=
  (∀ s : State, unitAt s.inq 0 = none → exec .input s = .fault .inputWait) ∧
  (∀ s : State, s.phase = .run → s.fetch = some codeIn → unitAt s.inq 0 = none → Stuck s) ∧
  (∀ (s : State) (c : Nat), unitAt s.inq 0 = none → s.cp < s.tlen → c ≤ 255 →
    ∃ t w, exec .input (s.supply [c]) = .next t ∧ t.cur = some w ∧ w.toNat = c ∧ t.ip = s.ip + 1)

/-- R121: a `,` that meets `n` invalid units in a row executes `n` times without leaving its place: the history gains the
one trace of the instruction, if any, and `n` diagnostics, and no more; `IP`, the tape and `PHASE` stay. -/
def Obligations.InputRetriesWithoutBound : Prop :=
  ∀ (n : Nat) (s : State), s.phase = .run → s.fetch = some codeIn →
    (∀ k, k < n + 1 → ∃ u, unitAt s.inq k = some u ∧ ¬ ValidUnit u) →
    ∃ t, Host.Core.run core (n + 1) s = .next t ∧ t.phase = .run ∧ t.ip = s.ip ∧ t.cp = s.cp ∧ t.inwait = true ∧
      t.hist = (s.traceStep codeIn).hist ++ List.replicate (n + 1) .diag ∧ KeepsTape s t ∧
      (∀ k, unitAt t.inq k = unitAt s.inq (k + (n + 1)))

/-- The model's own stop (log 7): an instruction that reads or writes the current cell has none to act on when `CP` is
not below `TLEN`, and stops by that name. -/
def Obligations.AbsentCellStops : Prop :=
  ∀ s : State, s.tlen ≤ s.cp →
    (∀ i : Instr, i = .inc ∨ i = .dec ∨ i = .out ∨ i = .loops ∨ i = .loope → exec i s = .fault .noSuchTapeCell) ∧
    (∀ u, unitAt s.inq 0 = some u → ValidUnit u → exec .input s = .fault .noSuchTapeCell)

/-! ### Loops -/

/-- R112: from a state that meets the invariant a taken jump lands one past the partner bracket, inside the program or at
its end: past a `]` further on for `[`, past a `[` further back for `]`. -/
def Obligations.JumpLandsPastPartner : Prop :=
  ∀ (s : State) (v : Byte), Inv s → s.phase = .run → s.cur = some v →
    (IsOpener s s.ip → v = 0 → ∃ q t, Assoc.get s.jt s.ip = some q ∧ IsCloser s q ∧ s.ip < q ∧
      step s = .next t ∧ t.ip = q + 1 ∧ t.ip ≤ s.plen) ∧
    (IsCloser s s.ip → v ≠ 0 → ∃ q t, Assoc.get s.jt s.ip = some q ∧ IsOpener s q ∧ q < s.ip ∧
      step s = .next t ∧ t.ip = q + 1 ∧ t.ip ≤ s.ip)

/-- R97, R111: an empty loop on a non-zero cell never ends: the `]` whose partner stands just before it jumps to itself,
and every number of steps gives the same state. -/
def Obligations.EmptyLoopRunsForEver : Prop :=
  ∀ (n : Nat) (s : State) (v : Byte), s.phase = .run → s.debug = false → s.fetch = some codeLoope →
    s.cur = some v → v ≠ 0 → (∃ q, Assoc.get s.jt s.ip = some q ∧ q + 1 = s.ip) →
    Host.Core.run core n s = .next s

/-! ### Whole-machine rules -/

/-- R14: the codes of `PHASE`, and its only transitions: `RESOLVE` to itself, `RUN` or `FAULT`; `RUN` to itself, `HALT` or
`FAULT`; and any phase to `RESOLVE` by reset. -/
def Obligations.PhaseTransitions : Prop :=
  (Phase.code .resolve = 0 ∧ Phase.code .run = 1 ∧ Phase.code .halt = 2 ∧ Phase.code .fault = 3) ∧
  (∀ s t : State, step s = .next t →
    (s.phase = .resolve ∧ (t.phase = .resolve ∨ t.phase = .run ∨ t.phase = .fault)) ∨
    (s.phase = .run ∧ (t.phase = .run ∨ t.phase = .halt ∨ t.phase = .fault))) ∧
  (∀ (s : State) (q : InputQueue), (s.restart q).phase = .resolve)

/-- R89 of `JT`, with R15 of `PROG` and `PLEN`, R16 of `DEBUG`, R17 of `RS`, R18 and R115 of `STK`: no step writes the
program, the flag or `TAPE_MAX`, and in phase `RUN` no step writes `JT`, `STK` or `RS`. That `TAPE_MAX` is a field that no
step writes is log 9. -/
def Obligations.ProgramAndTableAreImmutable : Prop :=
  ∀ s t : State, step s = .next t → KeepsProgram s t ∧ (s.phase = .run → KeepsResolver s t)

/-- R22, R45: only a `>` that reaches `TLEN` grows the tape, by one zero cell, leaving every cell; any other step keeps
`TLEN` and changes at most the current cell, and a resolver step changes no cell. So `TLEN` never decreases. -/
def Obligations.TapeGrowsOnlyByRight : Prop :=
  ∀ s t : State, step s = .next t →
    (s.phase = .run ∧ s.fetch = some codeRight ∧ s.cp + 1 = s.tlen ∧ s.tapeMax ≠ some s.tlen ∧ t.tlen = s.tlen + 1 ∧
      t.readTape s.tlen = some 0 ∧ ∀ a, a < s.tlen → t.readTape a = s.readTape a) ∨
    (t.tlen = s.tlen ∧ (∀ a, a ≠ s.cp → t.readTape a = s.readTape a) ∧ (s.phase = .resolve → KeepsTape s t))

/-- R20, R21, R114: `CP` changes only by `>` and `<`, by one; `IP` changes otherwise than by the advance only by a bracket;
a resolver step changes neither. -/
def Obligations.PointersMoveOnlyByTheirInstructions : Prop :=
  ∀ s t : State, step s = .next t →
    (t.cp = s.cp ∨ (s.phase = .run ∧ s.fetch = some codeRight ∧ t.cp = s.cp + 1) ∨
      (s.phase = .run ∧ s.fetch = some codeLeft ∧ t.cp + 1 = s.cp)) ∧
    (t.ip = s.ip ∨ (s.phase = .run ∧ t.ip = s.ip + 1) ∨
      (s.phase = .run ∧ (s.fetch = some codeLoops ∨ s.fetch = some codeLoope) ∧ t.ip = s.jumpEntry s.ip + 1))

/-- R24, R47, R51: events are only ever appended, and the program's output gains exactly the current cell's value when a
`.` executes and nothing at any other step. -/
def Obligations.HistoryIsAppendOnly : Prop :=
  ∀ s t : State, step s = .next t →
    (∃ es, t.hist = s.hist ++ es ∧ es.length ≤ 2) ∧
    (s.phase = .run → s.fetch = some codeOut → ∃ v, s.cur = some v ∧ t.output = s.output ++ [v]) ∧
    (¬ (s.phase = .run ∧ s.fetch = some codeOut) → t.output = s.output)

/-- R25: only an `IN` consumes input, one unit a step; every other step leaves `INQ` alone. -/
def Obligations.OnlyInputConsumesUnits : Prop :=
  ∀ s t : State, step s = .next t →
    (s.phase = .run ∧ s.fetch = some codeIn ∧ (∃ u, unitAt s.inq 0 = some u) ∧
      ∀ n, unitAt t.inq n = unitAt s.inq (n + 1)) ∨
    (¬ (s.phase = .run ∧ s.fetch = some codeIn) ∧ t.inq = s.inq)

/-! ### Faults -/

/-- R126: a step enters phase `FAULT` under exactly the conditions of the fault table, with the record the table gives:
an unmatched `]`, a left-over `[`, a `<` at index 0, a `>` at the tape's limit; no other condition raises a fault. -/
def Obligations.FaultTableIsComplete : Prop :=
  (Cause.code .none = 0 ∧ Cause.code .unmatchedBracket = 1 ∧ Cause.code .negativeTapeIndex = 2 ∧
    Cause.code .tapeLimit = 3) ∧
  ∀ s t : State, step s = .next t →
    (t.phase = .fault ↔
      (s.phase = .resolve ∧ s.readProg s.rs = some codeLoope ∧ s.stk = []) ∨
      (s.phase = .resolve ∧ s.plen ≤ s.rs ∧ s.stk ≠ []) ∨
      (s.phase = .run ∧ s.fetch = some codeLeft ∧ s.cp = 0) ∨
      (s.phase = .run ∧ s.fetch = some codeRight ∧ s.cp + 1 = s.tlen ∧ s.tapeMax = some s.tlen)) ∧
    (t.phase = .fault →
      (s.phase = .resolve ∧ t.ecause = .unmatchedBracket ∧ ((s.readProg s.rs = some codeLoope ∧ t.echar = codeLoope ∧
        t.epos = s.rs) ∨ (s.plen ≤ s.rs ∧ t.echar = codeLoops ∧ s.stk.head? = some t.epos))) ∨
      (s.phase = .run ∧ s.fetch = some codeLeft ∧ t.ecause = .negativeTapeIndex ∧ t.echar = codeLeft ∧ t.epos = s.ip) ∨
      (s.phase = .run ∧ s.fetch = some codeRight ∧ t.ecause = .tapeLimit ∧ t.echar = codeRight ∧ t.epos = s.ip))

/-- R130, R132: a step that takes a fault writes the error record and `PHASE` and nothing else, except that the
`TRACE_STEP` of the same step stands; after it there is no step, and only reset leads on. -/
def Obligations.FaultEntryIsPrecise : Prop :=
  ∀ s t : State, step s = .next t → t.phase = .fault →
    t = { s with ecause := t.ecause, echar := t.echar, epos := t.epos, phase := .fault, hist := t.hist } ∧
    t.ecause ≠ .none ∧ t.report = some (t.ecause, t.echar, t.epos) ∧
    (t.hist = s.hist ∨ ∃ c, s.phase = .run ∧ s.debug = true ∧ s.fetch = some c ∧
      t.hist = s.hist ++ [.traceStep s.tapeCells s.cp c .none]) ∧
    (∀ t', step t ≠ .next t') ∧ (∀ q, (t.restart q).ecause = .none ∧ (t.restart q).phase = .resolve)

/-- R26: the error record is written by fault entry and by no other step. -/
def Obligations.ErrorRecordWrittenOnlyByFault : Prop :=
  ∀ s t : State, step s = .next t → t.phase ≠ .fault → KeepsErrorRecord s t

/-- R127: `UnmatchedBracket` carries the bracket and its position (the offending `]`, or the bottommost `[`), and when it
is raised, from any state that meets the invariant, it is raised by the resolver, with nothing emitted and the engine as
reset left it; no step follows it, so that a run raises it at most once. -/
def Obligations.UnmatchedBracketPrecedesExecution : Prop :=
  ∀ s t : State, Inv s → step s = .next t → t.ecause = .unmatchedBracket →
    s.phase = .resolve ∧ t.phase = .fault ∧ t.hist = [] ∧ t.ip = 0 ∧ t.cp = 0 ∧ t.tapeCells = [0] ∧
    ((IsCloser s s.rs ∧ t.echar = codeLoope ∧ t.epos = s.rs) ∨ (t.echar = codeLoops ∧ s.stk.head? = some t.epos)) ∧
    ∀ t', step t ≠ .next t'

/-! ### Debug mode -/

/-- R143, R144, on the one history of R24; the order of a trace event and an `OUT` of the same step is meant under the
premise `SingleStream` (log 12, R147, R156). The branch words are those of R110 and R111, whose assignment R145 marks as
derived; that `RS` above `PLEN` ends the scan is log 18. What debug mode emits. The transition to `RUN` emits the whole program text, and no other resolver
step nor the halt emits anything; each step of a recognised instruction that has not already waited emits its report
first, with the branch word for the brackets, and no other step of the engine emits a trace event. -/
def Obligations.TraceEventsCarryTheReport : Prop :=
  (∀ s : State, s.phase = .resolve → s.plen ≤ s.rs → s.stk = [] →
    (s.debug = true → step s = .next { s with phase := .run, hist := s.hist ++ [.traceProgram s.text] }) ∧
    (s.debug = false → step s = .next { s with phase := .run })) ∧
  (∀ s t : State, step s = .next t →
    (s.phase = .resolve ∧ ¬ (s.plen ≤ s.rs ∧ s.stk = [])) ∨ (s.phase = .run ∧ s.ip = s.plen) → t.hist = s.hist) ∧
  (∀ (s t : State) (c : Byte), s.phase = .run → s.fetch = some c → step s = .next t →
    (s.debug = true ∧ isInert c = false ∧ s.inwait = false →
      ∃ b es, t.hist = s.hist ++ .traceStep s.tapeCells s.cp c b :: es ∧
        (c = codeLoops → b = if s.cur = some 0 then .skip else .enter) ∧
        (c = codeLoope → b = if s.cur = some 0 then .finish else .reenter) ∧
        (c ≠ codeLoops → c ≠ codeLoope → b = .none) ∧ (∀ e ∈ es, Event.untraced e = true)) ∧
    (¬ (s.debug = true ∧ isInert c = false ∧ s.inwait = false) →
      ∃ es, t.hist = s.hist ++ es ∧ ∀ e ∈ es, Event.untraced e = true))

/-- R146: debug mode is a pure observer. States that differ only in the flag and in trace events step alike, and runs
of one program on one input with the flag on and off go through the same states but for trace events. -/
def Obligations.DebugModeIsPureObserver : Prop :=
  (∀ s s' : State, withoutTrace s = withoutTrace s' → sameButTrace (step s) (step s')) ∧
  (∀ (n : Nat) (text : List Byte) (tapeMax : Option Nat) (input : InputQueue),
    sameButTrace (Host.Core.run core n (State.launch text true tapeMax input))
      (Host.Core.run core n (State.launch text false tapeMax input)))

/-! ### The Bracket Resolver -/

/-- R79, R82: the scan of an opener pushes its position; the scan of any character that is not a bracket only moves on. -/
def Obligations.ScanOpenerPushesPosition : Prop :=
  ∀ (s : State) (c : Byte), s.phase = .resolve → s.readProg s.rs = some c →
    (c = codeLoops → step s = .next { s with stk := s.stk ++ [s.rs], rs := s.rs + 1 }) ∧
    (c ≠ codeLoops → c ≠ codeLoope → step s = .next { s with rs := s.rs + 1 })

/-- R80: the scan of a closer with a partner pops it and records the pair both ways; only `STK`, `JT` and `RS` change, and
under the invariant the partner stands before. -/
def Obligations.ScanCloserPairsInnermost : Prop :=
  ∀ (s : State) (below : List Nat) (i : Nat), s.phase = .resolve → s.readProg s.rs = some codeLoope →
    s.stk = below ++ [i] →
    ∃ t, step s = .next t ∧ t.stk = below ∧ t.rs = s.rs + 1 ∧
      (i ≠ s.rs → Assoc.get t.jt i = some s.rs) ∧ Assoc.get t.jt s.rs = some i ∧
      (∀ p, p ≠ i → p ≠ s.rs → Assoc.get t.jt p = Assoc.get s.jt p) ∧
      t = { s with stk := t.stk, rs := t.rs, jt := t.jt } ∧ (Inv s → i < s.rs)

/-- R81, R84: the two ways the scan fails: at a closer with nothing open, at once, with that position; at the end of the
text with openers left, with the oldest one's position. Only the error record and `PHASE` are written. -/
def Obligations.ScanFailsOnUnmatchedBracket : Prop :=
  (∀ s : State, s.phase = .resolve → s.readProg s.rs = some codeLoope → s.stk = [] →
    step s = .next { s with ecause := .unmatchedBracket, echar := codeLoope, epos := s.rs, phase := .fault }) ∧
  (∀ (s : State) (b : Nat) (above : List Nat), s.phase = .resolve → s.plen ≤ s.rs → s.stk = b :: above →
    step s = .next { s with ecause := .unmatchedBracket, echar := codeLoops, epos := b, phase := .fault })

/-- R77, R85: the whole phase computes `Resolve(PROG)`. From a launch with any text, `PLEN + 1` steps reach phase `RUN`
with exactly that table and the engine as reset left it, or at most `PLEN + 1` steps reach phase `FAULT` with exactly
that character and position, no event made and the engine untouched. -/
def Obligations.ResolverComputesResolve : Prop :=
  ∀ (text : List Byte) (debug : Bool) (tapeMax : Option Nat) (input : InputQueue),
    match resolveText text with
    | .ok jt =>
      Host.Core.run core (text.length + 1) (State.launch text debug tapeMax input) =
        .next { State.launch text debug tapeMax input with
          phase := .run, rs := text.length, jt := jt, hist := if debug then [.traceProgram text] else [] }
    | .fail ch pos =>
      ∃ n t, 1 ≤ n ∧ n ≤ text.length + 1 ∧
        Host.Core.run core n (State.launch text debug tapeMax input) = .next t ∧
        t.phase = .fault ∧ t.ecause = .unmatchedBracket ∧ t.echar = ch ∧ t.epos = pos ∧ t.hist = [] ∧
        t.ip = 0 ∧ t.cp = 0 ∧ t.tape = [] ∧ t.tlen = 1 ∧ t.inq = input

/-- R71, R85: `Resolve(PROG)` is `ok` exactly when the text is well formed. -/
def Obligations.ResolveSucceedsIffWellFormed : Prop :=
  ∀ text : List Byte, (∃ jt, resolveText text = .ok jt) ↔ WellFormedText text

/-- R85: which position a failed resolve reports: for `]` the first closer with no unmatched opener before it, for `[`,
and only when there is no such closer, the leftmost opener that nothing closes. -/
def Obligations.ResolveReportsFirstUnmatched : Prop :=
  ∀ (text : List Byte) (ch : Byte) (pos : Nat), resolveText text = .fail ch pos →
    (ch = codeLoope ∧ text[pos]? = some codeLoope ∧ closers text pos = openers text pos ∧
      (∀ n, n ≤ pos → closers text n ≤ openers text n)) ∨
    (ch = codeLoops ∧ text[pos]? = some codeLoops ∧ (∀ n, closers text n ≤ openers text n) ∧
      closers text pos = openers text pos ∧
      (∀ n, pos < n → closers text n < openers text n))

/-- R86: a successful table is a perfect involution on the bracket positions, pairs each `[` with a later `]`, and the
pairs are disjoint or nested. -/
def Obligations.ResolvedTableIsInvolution : Prop :=
  ∀ (text : List Byte) (jt : JumpTable), resolveText text = .ok jt →
    (∀ p, (∃ q, Assoc.get jt p = some q) ↔ (text[p]? = some codeLoops ∨ text[p]? = some codeLoope)) ∧
    (∀ p q, Assoc.get jt p = some q → Assoc.get jt q = some p ∧ p ≠ q ∧
      (text[p]? = some codeLoops → text[q]? = some codeLoope ∧ p < q) ∧
      (text[p]? = some codeLoope → text[q]? = some codeLoops ∧ q < p)) ∧
    (∀ i j i' j', Assoc.get jt i = some j → i < j → Assoc.get jt i' = some j' → i' < j' → i < i' →
      j < i' ∨ j' < j)

/-! ### The launch arguments: a chosen input, finite or infinite, and the streams -/

/-- R9, R25: the only thing a step takes from outside the state is the next unit, and only an `IN` takes it. In every
environment the step is the step of the host's machine on the state whose input is that one unit, but for the input
still to come, and that input is what stands behind the unit taken. The host's step is the step in the open environment
(log 3). -/
def Obligations.StepTakesOnlyTheNextUnit : Prop :=
  (∀ s : State, step s = stepFrom Config.endlessUnit s) ∧
  ∀ (env : Environment) (s : State),
    sameButInput (stepFrom env s)
      (step { s with inq := { given := (unitFrom env s.inq 0).toList, endless := none } }) ∧
    ∀ t, stepFrom env s = .next t →
      (s.phase = .run ∧ s.fetch = some codeIn → ∀ n, unitFrom env t.inq n = unitFrom env s.inq (n + 1)) ∧
      (¬ (s.phase = .run ∧ s.fetch = some codeIn) → t.inq = s.inq)

/-- R6, R25 (92_eei_decisions.md D7): `INQ` is an argument, and may be any infinite sequence of units. For every such
sequence, `n` steps of the run on it are `n` steps of the host's machine on any finite beginning of it with at least `n`
units, and the two have the same units next. -/
def Obligations.InfiniteInputRunsAsItsPrefixes : Prop :=
  ∀ (env : Environment) (n m : Nat) (text : List Byte) (debug : Bool) (tapeMax : Option Nat), n ≤ m →
    sameButInput (Host.Core.run (coreFrom env) n (State.launch text debug tapeMax InputQueue.infinite))
      (Host.Core.run core n (State.launch text debug tapeMax (firstUnits env m))) ∧
    ∀ s t, Host.Core.run (coreFrom env) n (State.launch text debug tapeMax InputQueue.infinite) = .next s →
      Host.Core.run core n (State.launch text debug tapeMax (firstUnits env m)) = .next t →
      ∀ k, k + n < m → unitFrom env s.inq k = unitAt t.inq k

/-- R121: "If the environment supplies invalid units for ever, the machine executes the same `,` for ever": from a state
at a `,` whose infinite input holds no valid unit, every number of steps leads to a state at the same `,`, in phase
`RUN`, with one `DIAG` for each of them and the one trace of the instruction. -/
def Obligations.InvalidInputForEverNeverHalts : Prop :=
  ∀ (env : Environment) (s : State), s.phase = .run → s.fetch = some codeIn →
    (∀ k, ∃ u, unitFrom env s.inq k = some u ∧ ¬ ValidUnit u) →
    ∀ n, ∃ t, Host.Core.run (coreFrom env) (n + 1) s = .next t ∧ t.phase = .run ∧ t.ip = s.ip ∧ t.cp = s.cp ∧
      KeepsTape s t ∧ t.hist = (s.traceStep codeIn).hist ++ List.replicate (n + 1) .diag

/-- R156: a launch meets the premises `ProgramLoaded`, `DebugFixed`, `CleanEntry`, `NoFault` and `InputGiven`, and in
every environment the first two hold in every state of its run: the program and the flag are fixed for the run. -/
def Obligations.LaunchPremisesHold : Prop :=
  ∀ (text : List Byte) (debug : Bool) (tapeMax : Option Nat) (input : InputQueue),
    let s := State.launch text debug tapeMax input
    (ProgramLoaded text s ∧ DebugFixed debug s ∧ CleanEntry s ∧ NoFault s ∧ InputGiven input s) ∧
    ∀ (env : Environment) (n : Nat) (t : State), Host.Core.run (coreFrom env) n s = .next t →
      ProgramLoaded text t ∧ DebugFixed debug t

/-- R147, R156 (`SingleStream`), R125: what the outside receives of a `.` in debug mode. However the history is carried,
its output gains the value and its trace gains the report, each in its own order (log 12). Only on a single stream does
the report stand before the value. A single stream is one of the ways to carry it. -/
def Obligations.DeliveryKeepsOrderWithinKinds : Prop :=
  (∀ d : Delivery, SingleStream d → Delivers d) ∧
  ∀ (d : Delivery) (earlier : List Event) (s t : State), s.phase = .run → s.fetch = some codeOut → s.debug = true → s.inwait = false →
    step s = .next t →
    ∃ v, s.cur = some v ∧
      (Delivers d → outputOf (d ⟨earlier, t⟩) = outputOf (d ⟨earlier, s⟩) ++ [v] ∧
        tracesOf (d ⟨earlier, t⟩) = tracesOf (d ⟨earlier, s⟩) ++ [.traceStep s.tapeCells s.cp codeOut .none]) ∧
      (SingleStream d →
        d ⟨earlier, t⟩ = d ⟨earlier, s⟩ ++ [.traceStep s.tapeCells s.cp codeOut .none, .out v])

/-- R155: the kill is a reset, at a step boundary of any phase; it empties `HIST` and leaves what has been delivered as
it is. Whatever happens afterwards, steps, kills, launches and arrivals of input in any order and any environment,
nothing delivered is withdrawn: not of the whole on a single stream, and on any streams neither of the output nor of the
trace nor a diagnostic. That the events of ended runs stand beside the machine is log 20. -/
def Obligations.EventsAreNeverWithdrawn : Prop :=
  (∀ (x : Session) (input : InputQueue),
    (x.kill input).machine = x.machine.restart input ∧ (x.kill input).machine.hist = [] ∧
      (x.kill input).delivered = x.delivered) ∧
  ∀ (env : Environment) (x : Session) (as : List Action),
    x.delivered <+: (x.acts env as).delivered ∧
    ∀ d : Delivery,
      (SingleStream d → d x <+: d (x.acts env as)) ∧
      (Delivers d → outputOf (d x) <+: outputOf (d (x.acts env as)) ∧
        tracesOf (d x) <+: tracesOf (d (x.acts env as)) ∧
        (d x).count .diag ≤ (d (x.acts env as)).count .diag)

/-! ### Reset and launch -/

/-- R150: reset sets every state element to its value of R32 from any state, changes neither `PROG`, `PLEN`, `DEBUG` nor
`TAPE_MAX`, and keeps nothing of the run before it. -/
def Obligations.ResetSetsEveryElement : Prop :=
  (∀ (s : State) (input : InputQueue),
    let r := s.restart input
    r.phase = .resolve ∧ r.rs = 0 ∧ r.stk = [] ∧ (∀ p, Assoc.get r.jt p = none) ∧ r.ip = 0 ∧ r.cp = 0 ∧
      r.tapeCells = [0] ∧ r.tlen = 1 ∧ r.inwait = false ∧ r.hist = [] ∧ r.ecause.code = 0 ∧ r.echar = 0 ∧ r.epos = 0 ∧
      r.inq = input ∧ KeepsProgram s r) ∧
  (∀ (s s' : State) (input : InputQueue), KeepsProgram s s' → s'.restart input = s.restart input)

/-- R32, R152: the first state of a run holds the loaded text, one character a position, the flag as supplied, and the
reset values, so that the entry point is position 0; with nothing supplied it is the reset state (log 5). -/
def Obligations.LaunchHoldsProgramAndResetValues : Prop :=
  (∀ (text : List Byte) (debug : Bool) (tapeMax : Option Nat) (input : InputQueue),
    let s := State.launch text debug tapeMax input
    s.text = text ∧ s.plen = text.length ∧ (∀ p, s.readProg p = text[p]?) ∧ s.debug = debug ∧ s.tapeMax = tapeMax ∧
      CleanEntry s ∧ NoFault s ∧ InputGiven input s ∧ s.ip = 0) ∧
  State.reset = State.launch [] false none { given := [], endless := none }

/-! ### Invariants -/

/-- The reset state meets the invariant. -/
def Obligations.ResetMeetsInvariant : Prop := Inv State.reset

/-- Every launch meets the invariant, whatever the text, when a finite `TAPE_MAX` is at least 1 (R49). -/
def Obligations.LaunchMeetsInvariant : Prop :=
  ∀ (text : List Byte) (debug : Bool) (tapeMax : Option Nat) (input : InputQueue),
    (∀ m, tapeMax = some m → 1 ≤ m) → Inv (State.launch text debug tapeMax input)

/-- R31, R109 and the canonical forms: every step keeps the invariant, from every state that meets it. -/
def Obligations.StepKeepsInvariant : Prop :=
  ∀ s t : State, Inv s → step s = .next t → Inv t

/-- R31: at every step boundary of every run the invariant holds, and `TLEN` never decreases along the run. -/
def Obligations.InvariantAtEveryStepBoundary : Prop :=
  ∀ (text : List Byte) (debug : Bool) (tapeMax : Option Nat) (input : InputQueue),
    (∀ m, tapeMax = some m → 1 ≤ m) →
    ∀ (n : Nat) (s : State), Host.Core.run core n (State.launch text debug tapeMax input) = .next s →
      Inv s ∧ ∀ t, step s = .next t → s.tlen ≤ t.tlen

/-- R99, R162: from a state that meets the invariant and has not ended its run there is a next state, except at a `,`
with no input left, where the machine waits. No reachable run stops for any other reason. -/
def Obligations.ProgressUnlessInputWait : Prop :=
  ∀ s : State, Inv s → ¬ RunEnded s →
    (∃ t, step s = .next t) ∨
    (step s = .fault .inputWait ∧ s.phase = .run ∧ s.fetch = some codeIn ∧ unitAt s.inq 0 = none)

/-- R23: `INWAIT` is written by `IN` only. -/
def Obligations.InwaitWrittenOnlyByInput : Prop :=
  ∀ s t : State, step s = .next t → ¬ (s.phase = .run ∧ s.fetch = some codeIn) → t.inwait = s.inwait
end

