-- ==== Sys2Proof/Laws/Decode.lean ====
section
/-! SUPPORT. What the decoder can answer: the one case analysis of a cell value that later proofs cite. -/

namespace Sys2Proof

/-- A cell is one of the eight codes, with its instruction, or inert, with a `nop` (R63, R64). -/
theorem decodeCell_cases (c : Byte) :
    (c = codeInc ∧ decodeCell c = .inc) ∨ (c = codeIn ∧ decodeCell c = .input) ∨
    (c = codeDec ∧ decodeCell c = .dec) ∨ (c = codeOut ∧ decodeCell c = .out) ∨
    (c = codeLeft ∧ decodeCell c = .left) ∨ (c = codeRight ∧ decodeCell c = .right) ∨
    (c = codeLoops ∧ decodeCell c = .loops) ∨ (c = codeLoope ∧ decodeCell c = .loope) ∨
    (isInert c = true ∧ decodeCell c = .nop c) := by
  revert c; decide

/-- An instruction is traced exactly when its cell is not inert. -/
theorem decodeCell_recognised (c : Byte) : (decodeCell c).recognised = !isInert c := by
  revert c; decide

end Sys2Proof
end

