-- ==== Sys2Proof/Laws/Memory.lean ====
section
/-! SUPPORT. The laws of the two kinds of map: reading what was written, leaving the other addresses alone, and keeping
the canonical form. -/

namespace Sys2Proof.Machine

/-! ### Rising lists -/

theorem Assoc.get_set_same {β : Type} (m : List (Nat × β)) (a : Nat) (b : β) :
    Assoc.get (Assoc.set m a b) a = some b := by
  induction m with
  | nil => simp [Assoc.set, Assoc.get]
  | cons e rest ih =>
    obtain ⟨k, v⟩ := e
    simp only [Assoc.set]
    split
    · next h => simp [Assoc.get, Nat.ne_of_lt h, ih]
    · split <;> simp [Assoc.get]

theorem Assoc.get_set_other {β : Type} (m : List (Nat × β)) (a c : Nat) (b : β) (h : c ≠ a) :
    Assoc.get (Assoc.set m a b) c = Assoc.get m c := by
  induction m with
  | nil => simp [Assoc.set, Assoc.get, Ne.symm h]
  | cons e rest ih =>
    obtain ⟨k, v⟩ := e
    simp only [Assoc.set]
    split
    · simp [Assoc.get, ih]
    · split
      · next hk => subst hk; simp [Assoc.get, Ne.symm h]
      · simp [Assoc.get, Ne.symm h]

theorem Assoc.get_erase_same {β : Type} (m : List (Nat × β)) (a : Nat) :
    Assoc.get (Assoc.erase m a) a = none := by
  induction m with
  | nil => rfl
  | cons e rest ih =>
    obtain ⟨k, v⟩ := e
    by_cases hk : k = a <;> simp_all [Assoc.erase, Assoc.get]

theorem Assoc.get_erase_other {β : Type} (m : List (Nat × β)) (a c : Nat) (h : c ≠ a) :
    Assoc.get (Assoc.erase m a) c = Assoc.get m c := by
  induction m with
  | nil => rfl
  | cons e rest ih =>
    obtain ⟨k, v⟩ := e
    by_cases hk : k = a
    · subst hk; simp_all [Assoc.erase, Assoc.get, Ne.symm h]
    · simp_all [Assoc.erase, Assoc.get]

/-- An entry of `set m a b` is the new one or an entry of `m` at another key. -/
theorem Assoc.mem_set {β : Type} {m : List (Nat × β)} {a : Nat} {b : β} {e : Nat × β}
    (h : e ∈ Assoc.set m a b) : e = (a, b) ∨ e ∈ m := by
  induction m with
  | nil => simpa [Assoc.set] using h
  | cons f rest ih =>
    obtain ⟨k, v⟩ := f
    simp only [Assoc.set] at h
    split at h
    · rcases List.mem_cons.1 h with h | h
      · simp [h]
      · rcases ih h with h | h <;> simp [h]
    · split at h
      · rcases List.mem_cons.1 h with h | h <;> simp [h]
      · rcases List.mem_cons.1 h with h | h
        · exact .inl h
        · exact .inr h

theorem Assoc.rising_set {β : Type} {m : List (Nat × β)} (a : Nat) (b : β) (h : Assoc.Rising m) :
    Assoc.Rising (Assoc.set m a b) := by
  induction m with
  | nil => simp [Assoc.set, Assoc.Rising]
  | cons f rest ih =>
    obtain ⟨k, v⟩ := f
    obtain ⟨hhead, htail⟩ := List.pairwise_cons.1 h
    simp only [Assoc.set]
    split
    · next hk =>
      refine List.pairwise_cons.2 ⟨fun e he => ?_, ih htail⟩
      rcases Assoc.mem_set he with rfl | he
      · exact hk
      · exact hhead e he
    · next hk =>
      split
      · next heq => subst heq; exact List.pairwise_cons.2 ⟨hhead, htail⟩
      · next hne =>
        refine List.pairwise_cons.2 ⟨fun e he => ?_, h⟩
        rcases List.mem_cons.1 he with rfl | he
        · show a < k
          omega
        · have := hhead e he
          show a < e.1
          simp only at this
          omega

theorem Assoc.rising_erase {β : Type} {m : List (Nat × β)} (a : Nat) (h : Assoc.Rising m) :
    Assoc.Rising (Assoc.erase m a) := h.filter _

theorem Assoc.mem_of_mem_erase {β : Type} {m : List (Nat × β)} {a : Nat} {e : Nat × β}
    (h : e ∈ Assoc.erase m a) : e ∈ m := (List.mem_filter.1 h).1

/-- A key that no entry holds has no value. -/
theorem Assoc.get_none_of_forall {β : Type} {m : List (Nat × β)} {a : Nat} (h : ∀ e ∈ m, e.1 ≠ a) :
    Assoc.get m a = none := by
  induction m with
  | nil => rfl
  | cons f rest ih =>
    obtain ⟨k, v⟩ := f
    have hk : k ≠ a := h (k, v) (by simp)
    simp [Assoc.get, hk, ih fun e he => h e (by simp [he])]

/-! ### Byte memories -/

@[simp] theorem Memory.read_nil (a : Nat) : Memory.read [] a = Memory.unlisted := rfl

theorem Memory.read_write_same (m : Memory) (a : Nat) (v : Byte) : (m.write a v).read a = v := by
  unfold Memory.write Memory.read
  split
  · next h => simp [Assoc.get_erase_same, h]
  · simp [Assoc.get_set_same]

theorem Memory.read_write_other (m : Memory) (a c : Nat) (v : Byte) (h : c ≠ a) :
    (m.write a v).read c = m.read c := by
  unfold Memory.write Memory.read
  split
  · rw [Assoc.get_erase_other m a c h]
  · rw [Assoc.get_set_other m a c v h]

theorem Memory.wf_nil : Memory.wf [] := by decide

/-- Every write keeps the canonical form. -/
theorem Memory.wf_write {m : Memory} (a : Nat) (v : Byte) (h : m.wf) : (m.write a v).wf := by
  unfold Memory.write
  split
  · exact ⟨Assoc.rising_erase a h.1, fun e he => h.2 e (Assoc.mem_of_mem_erase he)⟩
  · next hv =>
    refine ⟨Assoc.rising_set a v h.1, fun e he => ?_⟩
    rcases Assoc.mem_set he with rfl | he
    · exact hv
    · exact h.2 e he

/-- A write lists no address but its own and those listed before. -/
theorem Memory.mem_write {m : Memory} {a : Nat} {v : Byte} {e : Host.Cell} (h : e ∈ m.write a v) :
    e.1 = a ∨ e ∈ m := by
  unfold Memory.write at h
  split at h
  · exact .inr (Assoc.mem_of_mem_erase h)
  · rcases Assoc.mem_set h with rfl | h
    · exact .inl rfl
    · exact .inr h

/-- Loading lists addresses from the base on, below the end of the text. -/
theorem Memory.mem_load {text : List Byte} {base : Nat} {e : Host.Cell} (h : e ∈ Memory.load base text) :
    base ≤ e.1 ∧ e.1 < base + text.length := by
  induction text generalizing base with
  | nil => simp [Memory.load] at h
  | cons b rest ih =>
    simp only [Memory.load] at h
    split at h
    · have := ih h
      simp only [List.length_cons]
      omega
    · rcases List.mem_cons.1 h with rfl | h
      · simp
      · have := ih h
        simp only [List.length_cons]
        omega

/-- A loaded program is in canonical form. -/
theorem Memory.wf_load (base : Nat) (text : List Byte) : (Memory.load base text).wf := by
  induction text generalizing base with
  | nil => exact Memory.wf_nil
  | cons b rest ih =>
    simp only [Memory.load]
    split
    · exact ih (base + 1)
    · next hb =>
      refine ⟨List.pairwise_cons.2 ⟨fun e he => (Memory.mem_load he).1, (ih (base + 1)).1⟩, fun e he => ?_⟩
      rcases List.mem_cons.1 he with rfl | he
      · exact hb
      · exact (ih (base + 1)).2 e he

/-- Each loaded character reads back at its position. -/
theorem Memory.read_load (text : List Byte) (base n : Nat) (h : n < text.length) :
    (Memory.load base text).read (base + n) = text[n] := by
  induction text generalizing base n with
  | nil => simp at h
  | cons b rest ih =>
    have hshift : ∀ k, k < rest.length → (Memory.load (base + 1) rest).read (base + (k + 1)) = rest[k]! := by
      intro k hk
      rw [show base + (k + 1) = base + 1 + k by omega, ih (base + 1) k hk]
      simp [hk]
    have hbase : Assoc.get (Memory.load (base + 1) rest) base = none :=
      Assoc.get_none_of_forall fun e he => by have := (Memory.mem_load he).1; omega
    simp only [Memory.load]
    split
    · next hb =>
      cases n with
      | zero => simp [Memory.read, hbase, hb]
      | succ k =>
        have hk : k < rest.length := by simpa using h
        simpa [hk] using hshift k hk
    · cases n with
      | zero => simp [Memory.read, Assoc.get]
      | succ k =>
        have hk : k < rest.length := by simpa using h
        have hne : ¬ base = base + (k + 1) := by omega
        have := hshift k hk
        simp only [Memory.read] at this ⊢
        simpa [Assoc.get, hne, hk] using this

end Sys2Proof.Machine
end

