-- ==== Sys2Proof/Laws/State.lean ====
section
/-! SUPPORT. What each update of State does to each field, and to the readers of the three address spaces: one lemma a
field and update, each true by definition, so that no later proof unfolds a record update. -/

namespace Sys2Proof.Machine

/-! ### `writeTape` -/

@[simp] theorem State.writeTape_prog (s : State) (a : Nat) (v : Byte) : (s.writeTape a v).prog = s.prog := rfl
@[simp] theorem State.writeTape_plen (s : State) (a : Nat) (v : Byte) : (s.writeTape a v).plen = s.plen := rfl
@[simp] theorem State.writeTape_debug (s : State) (a : Nat) (v : Byte) : (s.writeTape a v).debug = s.debug := rfl
@[simp] theorem State.writeTape_tapeMax (s : State) (a : Nat) (v : Byte) : (s.writeTape a v).tapeMax = s.tapeMax := rfl
@[simp] theorem State.writeTape_phase (s : State) (a : Nat) (v : Byte) : (s.writeTape a v).phase = s.phase := rfl
@[simp] theorem State.writeTape_rs (s : State) (a : Nat) (v : Byte) : (s.writeTape a v).rs = s.rs := rfl
@[simp] theorem State.writeTape_stk (s : State) (a : Nat) (v : Byte) : (s.writeTape a v).stk = s.stk := rfl
@[simp] theorem State.writeTape_jt (s : State) (a : Nat) (v : Byte) : (s.writeTape a v).jt = s.jt := rfl
@[simp] theorem State.writeTape_ip (s : State) (a : Nat) (v : Byte) : (s.writeTape a v).ip = s.ip := rfl
@[simp] theorem State.writeTape_cp (s : State) (a : Nat) (v : Byte) : (s.writeTape a v).cp = s.cp := rfl
@[simp] theorem State.writeTape_tape (s : State) (a : Nat) (v : Byte) : (s.writeTape a v).tape = s.tape.write a v := rfl
@[simp] theorem State.writeTape_tlen (s : State) (a : Nat) (v : Byte) : (s.writeTape a v).tlen = s.tlen := rfl
@[simp] theorem State.writeTape_inwait (s : State) (a : Nat) (v : Byte) : (s.writeTape a v).inwait = s.inwait := rfl
@[simp] theorem State.writeTape_hist (s : State) (a : Nat) (v : Byte) : (s.writeTape a v).hist = s.hist := rfl
@[simp] theorem State.writeTape_inq (s : State) (a : Nat) (v : Byte) : (s.writeTape a v).inq = s.inq := rfl
@[simp] theorem State.writeTape_ecause (s : State) (a : Nat) (v : Byte) : (s.writeTape a v).ecause = s.ecause := rfl
@[simp] theorem State.writeTape_echar (s : State) (a : Nat) (v : Byte) : (s.writeTape a v).echar = s.echar := rfl
@[simp] theorem State.writeTape_epos (s : State) (a : Nat) (v : Byte) : (s.writeTape a v).epos = s.epos := rfl
@[simp] theorem State.writeTape_readProg (s : State) (a : Nat) (v : Byte) (x : Nat) : (s.writeTape a v).readProg x = s.readProg x := rfl
@[simp] theorem State.writeTape_jumpEntry (s : State) (a : Nat) (v : Byte) (x : Nat) : (s.writeTape a v).jumpEntry x = s.jumpEntry x := rfl

/-! ### `tapeAppend` -/

@[simp] theorem State.tapeAppend_prog (s : State) : (s.tapeAppend).prog = s.prog := rfl
@[simp] theorem State.tapeAppend_plen (s : State) : (s.tapeAppend).plen = s.plen := rfl
@[simp] theorem State.tapeAppend_debug (s : State) : (s.tapeAppend).debug = s.debug := rfl
@[simp] theorem State.tapeAppend_tapeMax (s : State) : (s.tapeAppend).tapeMax = s.tapeMax := rfl
@[simp] theorem State.tapeAppend_phase (s : State) : (s.tapeAppend).phase = s.phase := rfl
@[simp] theorem State.tapeAppend_rs (s : State) : (s.tapeAppend).rs = s.rs := rfl
@[simp] theorem State.tapeAppend_stk (s : State) : (s.tapeAppend).stk = s.stk := rfl
@[simp] theorem State.tapeAppend_jt (s : State) : (s.tapeAppend).jt = s.jt := rfl
@[simp] theorem State.tapeAppend_ip (s : State) : (s.tapeAppend).ip = s.ip := rfl
@[simp] theorem State.tapeAppend_cp (s : State) : (s.tapeAppend).cp = s.cp := rfl
@[simp] theorem State.tapeAppend_tape (s : State) : (s.tapeAppend).tape = s.tape.write s.tlen 0 := rfl
@[simp] theorem State.tapeAppend_tlen (s : State) : (s.tapeAppend).tlen = s.tlen + 1 := rfl
@[simp] theorem State.tapeAppend_inwait (s : State) : (s.tapeAppend).inwait = s.inwait := rfl
@[simp] theorem State.tapeAppend_hist (s : State) : (s.tapeAppend).hist = s.hist := rfl
@[simp] theorem State.tapeAppend_inq (s : State) : (s.tapeAppend).inq = s.inq := rfl
@[simp] theorem State.tapeAppend_ecause (s : State) : (s.tapeAppend).ecause = s.ecause := rfl
@[simp] theorem State.tapeAppend_echar (s : State) : (s.tapeAppend).echar = s.echar := rfl
@[simp] theorem State.tapeAppend_epos (s : State) : (s.tapeAppend).epos = s.epos := rfl
@[simp] theorem State.tapeAppend_readProg (s : State) (x : Nat) : (s.tapeAppend).readProg x = s.readProg x := rfl
@[simp] theorem State.tapeAppend_jumpEntry (s : State) (x : Nat) : (s.tapeAppend).jumpEntry x = s.jumpEntry x := rfl

/-! ### `setCp` -/

@[simp] theorem State.setCp_prog (s : State) (a : Nat) : (s.setCp a).prog = s.prog := rfl
@[simp] theorem State.setCp_plen (s : State) (a : Nat) : (s.setCp a).plen = s.plen := rfl
@[simp] theorem State.setCp_debug (s : State) (a : Nat) : (s.setCp a).debug = s.debug := rfl
@[simp] theorem State.setCp_tapeMax (s : State) (a : Nat) : (s.setCp a).tapeMax = s.tapeMax := rfl
@[simp] theorem State.setCp_phase (s : State) (a : Nat) : (s.setCp a).phase = s.phase := rfl
@[simp] theorem State.setCp_rs (s : State) (a : Nat) : (s.setCp a).rs = s.rs := rfl
@[simp] theorem State.setCp_stk (s : State) (a : Nat) : (s.setCp a).stk = s.stk := rfl
@[simp] theorem State.setCp_jt (s : State) (a : Nat) : (s.setCp a).jt = s.jt := rfl
@[simp] theorem State.setCp_ip (s : State) (a : Nat) : (s.setCp a).ip = s.ip := rfl
@[simp] theorem State.setCp_cp (s : State) (a : Nat) : (s.setCp a).cp = a := rfl
@[simp] theorem State.setCp_tape (s : State) (a : Nat) : (s.setCp a).tape = s.tape := rfl
@[simp] theorem State.setCp_tlen (s : State) (a : Nat) : (s.setCp a).tlen = s.tlen := rfl
@[simp] theorem State.setCp_inwait (s : State) (a : Nat) : (s.setCp a).inwait = s.inwait := rfl
@[simp] theorem State.setCp_hist (s : State) (a : Nat) : (s.setCp a).hist = s.hist := rfl
@[simp] theorem State.setCp_inq (s : State) (a : Nat) : (s.setCp a).inq = s.inq := rfl
@[simp] theorem State.setCp_ecause (s : State) (a : Nat) : (s.setCp a).ecause = s.ecause := rfl
@[simp] theorem State.setCp_echar (s : State) (a : Nat) : (s.setCp a).echar = s.echar := rfl
@[simp] theorem State.setCp_epos (s : State) (a : Nat) : (s.setCp a).epos = s.epos := rfl
@[simp] theorem State.setCp_readProg (s : State) (a : Nat) (x : Nat) : (s.setCp a).readProg x = s.readProg x := rfl
@[simp] theorem State.setCp_readTape (s : State) (a : Nat) (x : Nat) : (s.setCp a).readTape x = s.readTape x := rfl
@[simp] theorem State.setCp_jumpEntry (s : State) (a : Nat) (x : Nat) : (s.setCp a).jumpEntry x = s.jumpEntry x := rfl

/-! ### `setIp` -/

@[simp] theorem State.setIp_prog (s : State) (a : Nat) : (s.setIp a).prog = s.prog := rfl
@[simp] theorem State.setIp_plen (s : State) (a : Nat) : (s.setIp a).plen = s.plen := rfl
@[simp] theorem State.setIp_debug (s : State) (a : Nat) : (s.setIp a).debug = s.debug := rfl
@[simp] theorem State.setIp_tapeMax (s : State) (a : Nat) : (s.setIp a).tapeMax = s.tapeMax := rfl
@[simp] theorem State.setIp_phase (s : State) (a : Nat) : (s.setIp a).phase = s.phase := rfl
@[simp] theorem State.setIp_rs (s : State) (a : Nat) : (s.setIp a).rs = s.rs := rfl
@[simp] theorem State.setIp_stk (s : State) (a : Nat) : (s.setIp a).stk = s.stk := rfl
@[simp] theorem State.setIp_jt (s : State) (a : Nat) : (s.setIp a).jt = s.jt := rfl
@[simp] theorem State.setIp_ip (s : State) (a : Nat) : (s.setIp a).ip = a := rfl
@[simp] theorem State.setIp_cp (s : State) (a : Nat) : (s.setIp a).cp = s.cp := rfl
@[simp] theorem State.setIp_tape (s : State) (a : Nat) : (s.setIp a).tape = s.tape := rfl
@[simp] theorem State.setIp_tlen (s : State) (a : Nat) : (s.setIp a).tlen = s.tlen := rfl
@[simp] theorem State.setIp_inwait (s : State) (a : Nat) : (s.setIp a).inwait = s.inwait := rfl
@[simp] theorem State.setIp_hist (s : State) (a : Nat) : (s.setIp a).hist = s.hist := rfl
@[simp] theorem State.setIp_inq (s : State) (a : Nat) : (s.setIp a).inq = s.inq := rfl
@[simp] theorem State.setIp_ecause (s : State) (a : Nat) : (s.setIp a).ecause = s.ecause := rfl
@[simp] theorem State.setIp_echar (s : State) (a : Nat) : (s.setIp a).echar = s.echar := rfl
@[simp] theorem State.setIp_epos (s : State) (a : Nat) : (s.setIp a).epos = s.epos := rfl
@[simp] theorem State.setIp_readProg (s : State) (a : Nat) (x : Nat) : (s.setIp a).readProg x = s.readProg x := rfl
@[simp] theorem State.setIp_readTape (s : State) (a : Nat) (x : Nat) : (s.setIp a).readTape x = s.readTape x := rfl
@[simp] theorem State.setIp_jumpEntry (s : State) (a : Nat) (x : Nat) : (s.setIp a).jumpEntry x = s.jumpEntry x := rfl

/-! ### `advance` -/

@[simp] theorem State.advance_prog (s : State) : (s.advance).prog = s.prog := rfl
@[simp] theorem State.advance_plen (s : State) : (s.advance).plen = s.plen := rfl
@[simp] theorem State.advance_debug (s : State) : (s.advance).debug = s.debug := rfl
@[simp] theorem State.advance_tapeMax (s : State) : (s.advance).tapeMax = s.tapeMax := rfl
@[simp] theorem State.advance_phase (s : State) : (s.advance).phase = s.phase := rfl
@[simp] theorem State.advance_rs (s : State) : (s.advance).rs = s.rs := rfl
@[simp] theorem State.advance_stk (s : State) : (s.advance).stk = s.stk := rfl
@[simp] theorem State.advance_jt (s : State) : (s.advance).jt = s.jt := rfl
@[simp] theorem State.advance_ip (s : State) : (s.advance).ip = s.ip + 1 := rfl
@[simp] theorem State.advance_cp (s : State) : (s.advance).cp = s.cp := rfl
@[simp] theorem State.advance_tape (s : State) : (s.advance).tape = s.tape := rfl
@[simp] theorem State.advance_tlen (s : State) : (s.advance).tlen = s.tlen := rfl
@[simp] theorem State.advance_inwait (s : State) : (s.advance).inwait = s.inwait := rfl
@[simp] theorem State.advance_hist (s : State) : (s.advance).hist = s.hist := rfl
@[simp] theorem State.advance_inq (s : State) : (s.advance).inq = s.inq := rfl
@[simp] theorem State.advance_ecause (s : State) : (s.advance).ecause = s.ecause := rfl
@[simp] theorem State.advance_echar (s : State) : (s.advance).echar = s.echar := rfl
@[simp] theorem State.advance_epos (s : State) : (s.advance).epos = s.epos := rfl
@[simp] theorem State.advance_readProg (s : State) (x : Nat) : (s.advance).readProg x = s.readProg x := rfl
@[simp] theorem State.advance_readTape (s : State) (x : Nat) : (s.advance).readTape x = s.readTape x := rfl
@[simp] theorem State.advance_jumpEntry (s : State) (x : Nat) : (s.advance).jumpEntry x = s.jumpEntry x := rfl

/-! ### `setPhase` -/

@[simp] theorem State.setPhase_prog (s : State) (p : Phase) : (s.setPhase p).prog = s.prog := rfl
@[simp] theorem State.setPhase_plen (s : State) (p : Phase) : (s.setPhase p).plen = s.plen := rfl
@[simp] theorem State.setPhase_debug (s : State) (p : Phase) : (s.setPhase p).debug = s.debug := rfl
@[simp] theorem State.setPhase_tapeMax (s : State) (p : Phase) : (s.setPhase p).tapeMax = s.tapeMax := rfl
@[simp] theorem State.setPhase_phase (s : State) (p : Phase) : (s.setPhase p).phase = p := rfl
@[simp] theorem State.setPhase_rs (s : State) (p : Phase) : (s.setPhase p).rs = s.rs := rfl
@[simp] theorem State.setPhase_stk (s : State) (p : Phase) : (s.setPhase p).stk = s.stk := rfl
@[simp] theorem State.setPhase_jt (s : State) (p : Phase) : (s.setPhase p).jt = s.jt := rfl
@[simp] theorem State.setPhase_ip (s : State) (p : Phase) : (s.setPhase p).ip = s.ip := rfl
@[simp] theorem State.setPhase_cp (s : State) (p : Phase) : (s.setPhase p).cp = s.cp := rfl
@[simp] theorem State.setPhase_tape (s : State) (p : Phase) : (s.setPhase p).tape = s.tape := rfl
@[simp] theorem State.setPhase_tlen (s : State) (p : Phase) : (s.setPhase p).tlen = s.tlen := rfl
@[simp] theorem State.setPhase_inwait (s : State) (p : Phase) : (s.setPhase p).inwait = s.inwait := rfl
@[simp] theorem State.setPhase_hist (s : State) (p : Phase) : (s.setPhase p).hist = s.hist := rfl
@[simp] theorem State.setPhase_inq (s : State) (p : Phase) : (s.setPhase p).inq = s.inq := rfl
@[simp] theorem State.setPhase_ecause (s : State) (p : Phase) : (s.setPhase p).ecause = s.ecause := rfl
@[simp] theorem State.setPhase_echar (s : State) (p : Phase) : (s.setPhase p).echar = s.echar := rfl
@[simp] theorem State.setPhase_epos (s : State) (p : Phase) : (s.setPhase p).epos = s.epos := rfl
@[simp] theorem State.setPhase_readProg (s : State) (p : Phase) (x : Nat) : (s.setPhase p).readProg x = s.readProg x := rfl
@[simp] theorem State.setPhase_readTape (s : State) (p : Phase) (x : Nat) : (s.setPhase p).readTape x = s.readTape x := rfl
@[simp] theorem State.setPhase_jumpEntry (s : State) (p : Phase) (x : Nat) : (s.setPhase p).jumpEntry x = s.jumpEntry x := rfl

/-! ### `setInwait` -/

@[simp] theorem State.setInwait_prog (s : State) (b : Bool) : (s.setInwait b).prog = s.prog := rfl
@[simp] theorem State.setInwait_plen (s : State) (b : Bool) : (s.setInwait b).plen = s.plen := rfl
@[simp] theorem State.setInwait_debug (s : State) (b : Bool) : (s.setInwait b).debug = s.debug := rfl
@[simp] theorem State.setInwait_tapeMax (s : State) (b : Bool) : (s.setInwait b).tapeMax = s.tapeMax := rfl
@[simp] theorem State.setInwait_phase (s : State) (b : Bool) : (s.setInwait b).phase = s.phase := rfl
@[simp] theorem State.setInwait_rs (s : State) (b : Bool) : (s.setInwait b).rs = s.rs := rfl
@[simp] theorem State.setInwait_stk (s : State) (b : Bool) : (s.setInwait b).stk = s.stk := rfl
@[simp] theorem State.setInwait_jt (s : State) (b : Bool) : (s.setInwait b).jt = s.jt := rfl
@[simp] theorem State.setInwait_ip (s : State) (b : Bool) : (s.setInwait b).ip = s.ip := rfl
@[simp] theorem State.setInwait_cp (s : State) (b : Bool) : (s.setInwait b).cp = s.cp := rfl
@[simp] theorem State.setInwait_tape (s : State) (b : Bool) : (s.setInwait b).tape = s.tape := rfl
@[simp] theorem State.setInwait_tlen (s : State) (b : Bool) : (s.setInwait b).tlen = s.tlen := rfl
@[simp] theorem State.setInwait_inwait (s : State) (b : Bool) : (s.setInwait b).inwait = b := rfl
@[simp] theorem State.setInwait_hist (s : State) (b : Bool) : (s.setInwait b).hist = s.hist := rfl
@[simp] theorem State.setInwait_inq (s : State) (b : Bool) : (s.setInwait b).inq = s.inq := rfl
@[simp] theorem State.setInwait_ecause (s : State) (b : Bool) : (s.setInwait b).ecause = s.ecause := rfl
@[simp] theorem State.setInwait_echar (s : State) (b : Bool) : (s.setInwait b).echar = s.echar := rfl
@[simp] theorem State.setInwait_epos (s : State) (b : Bool) : (s.setInwait b).epos = s.epos := rfl
@[simp] theorem State.setInwait_readProg (s : State) (b : Bool) (x : Nat) : (s.setInwait b).readProg x = s.readProg x := rfl
@[simp] theorem State.setInwait_readTape (s : State) (b : Bool) (x : Nat) : (s.setInwait b).readTape x = s.readTape x := rfl
@[simp] theorem State.setInwait_jumpEntry (s : State) (b : Bool) (x : Nat) : (s.setInwait b).jumpEntry x = s.jumpEntry x := rfl

/-! ### `scanNext` -/

@[simp] theorem State.scanNext_prog (s : State) : (s.scanNext).prog = s.prog := rfl
@[simp] theorem State.scanNext_plen (s : State) : (s.scanNext).plen = s.plen := rfl
@[simp] theorem State.scanNext_debug (s : State) : (s.scanNext).debug = s.debug := rfl
@[simp] theorem State.scanNext_tapeMax (s : State) : (s.scanNext).tapeMax = s.tapeMax := rfl
@[simp] theorem State.scanNext_phase (s : State) : (s.scanNext).phase = s.phase := rfl
@[simp] theorem State.scanNext_rs (s : State) : (s.scanNext).rs = s.rs + 1 := rfl
@[simp] theorem State.scanNext_stk (s : State) : (s.scanNext).stk = s.stk := rfl
@[simp] theorem State.scanNext_jt (s : State) : (s.scanNext).jt = s.jt := rfl
@[simp] theorem State.scanNext_ip (s : State) : (s.scanNext).ip = s.ip := rfl
@[simp] theorem State.scanNext_cp (s : State) : (s.scanNext).cp = s.cp := rfl
@[simp] theorem State.scanNext_tape (s : State) : (s.scanNext).tape = s.tape := rfl
@[simp] theorem State.scanNext_tlen (s : State) : (s.scanNext).tlen = s.tlen := rfl
@[simp] theorem State.scanNext_inwait (s : State) : (s.scanNext).inwait = s.inwait := rfl
@[simp] theorem State.scanNext_hist (s : State) : (s.scanNext).hist = s.hist := rfl
@[simp] theorem State.scanNext_inq (s : State) : (s.scanNext).inq = s.inq := rfl
@[simp] theorem State.scanNext_ecause (s : State) : (s.scanNext).ecause = s.ecause := rfl
@[simp] theorem State.scanNext_echar (s : State) : (s.scanNext).echar = s.echar := rfl
@[simp] theorem State.scanNext_epos (s : State) : (s.scanNext).epos = s.epos := rfl
@[simp] theorem State.scanNext_readProg (s : State) (x : Nat) : (s.scanNext).readProg x = s.readProg x := rfl
@[simp] theorem State.scanNext_readTape (s : State) (x : Nat) : (s.scanNext).readTape x = s.readTape x := rfl
@[simp] theorem State.scanNext_jumpEntry (s : State) (x : Nat) : (s.scanNext).jumpEntry x = s.jumpEntry x := rfl

/-! ### `setStk` -/

@[simp] theorem State.setStk_prog (s : State) (l : List Nat) : (s.setStk l).prog = s.prog := rfl
@[simp] theorem State.setStk_plen (s : State) (l : List Nat) : (s.setStk l).plen = s.plen := rfl
@[simp] theorem State.setStk_debug (s : State) (l : List Nat) : (s.setStk l).debug = s.debug := rfl
@[simp] theorem State.setStk_tapeMax (s : State) (l : List Nat) : (s.setStk l).tapeMax = s.tapeMax := rfl
@[simp] theorem State.setStk_phase (s : State) (l : List Nat) : (s.setStk l).phase = s.phase := rfl
@[simp] theorem State.setStk_rs (s : State) (l : List Nat) : (s.setStk l).rs = s.rs := rfl
@[simp] theorem State.setStk_stk (s : State) (l : List Nat) : (s.setStk l).stk = l := rfl
@[simp] theorem State.setStk_jt (s : State) (l : List Nat) : (s.setStk l).jt = s.jt := rfl
@[simp] theorem State.setStk_ip (s : State) (l : List Nat) : (s.setStk l).ip = s.ip := rfl
@[simp] theorem State.setStk_cp (s : State) (l : List Nat) : (s.setStk l).cp = s.cp := rfl
@[simp] theorem State.setStk_tape (s : State) (l : List Nat) : (s.setStk l).tape = s.tape := rfl
@[simp] theorem State.setStk_tlen (s : State) (l : List Nat) : (s.setStk l).tlen = s.tlen := rfl
@[simp] theorem State.setStk_inwait (s : State) (l : List Nat) : (s.setStk l).inwait = s.inwait := rfl
@[simp] theorem State.setStk_hist (s : State) (l : List Nat) : (s.setStk l).hist = s.hist := rfl
@[simp] theorem State.setStk_inq (s : State) (l : List Nat) : (s.setStk l).inq = s.inq := rfl
@[simp] theorem State.setStk_ecause (s : State) (l : List Nat) : (s.setStk l).ecause = s.ecause := rfl
@[simp] theorem State.setStk_echar (s : State) (l : List Nat) : (s.setStk l).echar = s.echar := rfl
@[simp] theorem State.setStk_epos (s : State) (l : List Nat) : (s.setStk l).epos = s.epos := rfl
@[simp] theorem State.setStk_readProg (s : State) (l : List Nat) (x : Nat) : (s.setStk l).readProg x = s.readProg x := rfl
@[simp] theorem State.setStk_readTape (s : State) (l : List Nat) (x : Nat) : (s.setStk l).readTape x = s.readTape x := rfl
@[simp] theorem State.setStk_jumpEntry (s : State) (l : List Nat) (x : Nat) : (s.setStk l).jumpEntry x = s.jumpEntry x := rfl

/-! ### `setEntry` -/

@[simp] theorem State.setEntry_prog (s : State) (a b : Nat) : (s.setEntry a b).prog = s.prog := rfl
@[simp] theorem State.setEntry_plen (s : State) (a b : Nat) : (s.setEntry a b).plen = s.plen := rfl
@[simp] theorem State.setEntry_debug (s : State) (a b : Nat) : (s.setEntry a b).debug = s.debug := rfl
@[simp] theorem State.setEntry_tapeMax (s : State) (a b : Nat) : (s.setEntry a b).tapeMax = s.tapeMax := rfl
@[simp] theorem State.setEntry_phase (s : State) (a b : Nat) : (s.setEntry a b).phase = s.phase := rfl
@[simp] theorem State.setEntry_rs (s : State) (a b : Nat) : (s.setEntry a b).rs = s.rs := rfl
@[simp] theorem State.setEntry_stk (s : State) (a b : Nat) : (s.setEntry a b).stk = s.stk := rfl
@[simp] theorem State.setEntry_jt (s : State) (a b : Nat) : (s.setEntry a b).jt = Assoc.set s.jt a b := rfl
@[simp] theorem State.setEntry_ip (s : State) (a b : Nat) : (s.setEntry a b).ip = s.ip := rfl
@[simp] theorem State.setEntry_cp (s : State) (a b : Nat) : (s.setEntry a b).cp = s.cp := rfl
@[simp] theorem State.setEntry_tape (s : State) (a b : Nat) : (s.setEntry a b).tape = s.tape := rfl
@[simp] theorem State.setEntry_tlen (s : State) (a b : Nat) : (s.setEntry a b).tlen = s.tlen := rfl
@[simp] theorem State.setEntry_inwait (s : State) (a b : Nat) : (s.setEntry a b).inwait = s.inwait := rfl
@[simp] theorem State.setEntry_hist (s : State) (a b : Nat) : (s.setEntry a b).hist = s.hist := rfl
@[simp] theorem State.setEntry_inq (s : State) (a b : Nat) : (s.setEntry a b).inq = s.inq := rfl
@[simp] theorem State.setEntry_ecause (s : State) (a b : Nat) : (s.setEntry a b).ecause = s.ecause := rfl
@[simp] theorem State.setEntry_echar (s : State) (a b : Nat) : (s.setEntry a b).echar = s.echar := rfl
@[simp] theorem State.setEntry_epos (s : State) (a b : Nat) : (s.setEntry a b).epos = s.epos := rfl
@[simp] theorem State.setEntry_readProg (s : State) (a b : Nat) (x : Nat) : (s.setEntry a b).readProg x = s.readProg x := rfl
@[simp] theorem State.setEntry_readTape (s : State) (a b : Nat) (x : Nat) : (s.setEntry a b).readTape x = s.readTape x := rfl

/-! ### `setInq` -/

@[simp] theorem State.setInq_prog (s : State) (q : InputQueue) : (s.setInq q).prog = s.prog := rfl
@[simp] theorem State.setInq_plen (s : State) (q : InputQueue) : (s.setInq q).plen = s.plen := rfl
@[simp] theorem State.setInq_debug (s : State) (q : InputQueue) : (s.setInq q).debug = s.debug := rfl
@[simp] theorem State.setInq_tapeMax (s : State) (q : InputQueue) : (s.setInq q).tapeMax = s.tapeMax := rfl
@[simp] theorem State.setInq_phase (s : State) (q : InputQueue) : (s.setInq q).phase = s.phase := rfl
@[simp] theorem State.setInq_rs (s : State) (q : InputQueue) : (s.setInq q).rs = s.rs := rfl
@[simp] theorem State.setInq_stk (s : State) (q : InputQueue) : (s.setInq q).stk = s.stk := rfl
@[simp] theorem State.setInq_jt (s : State) (q : InputQueue) : (s.setInq q).jt = s.jt := rfl
@[simp] theorem State.setInq_ip (s : State) (q : InputQueue) : (s.setInq q).ip = s.ip := rfl
@[simp] theorem State.setInq_cp (s : State) (q : InputQueue) : (s.setInq q).cp = s.cp := rfl
@[simp] theorem State.setInq_tape (s : State) (q : InputQueue) : (s.setInq q).tape = s.tape := rfl
@[simp] theorem State.setInq_tlen (s : State) (q : InputQueue) : (s.setInq q).tlen = s.tlen := rfl
@[simp] theorem State.setInq_inwait (s : State) (q : InputQueue) : (s.setInq q).inwait = s.inwait := rfl
@[simp] theorem State.setInq_hist (s : State) (q : InputQueue) : (s.setInq q).hist = s.hist := rfl
@[simp] theorem State.setInq_inq (s : State) (q : InputQueue) : (s.setInq q).inq = q := rfl
@[simp] theorem State.setInq_ecause (s : State) (q : InputQueue) : (s.setInq q).ecause = s.ecause := rfl
@[simp] theorem State.setInq_echar (s : State) (q : InputQueue) : (s.setInq q).echar = s.echar := rfl
@[simp] theorem State.setInq_epos (s : State) (q : InputQueue) : (s.setInq q).epos = s.epos := rfl
@[simp] theorem State.setInq_readProg (s : State) (q : InputQueue) (x : Nat) : (s.setInq q).readProg x = s.readProg x := rfl
@[simp] theorem State.setInq_readTape (s : State) (q : InputQueue) (x : Nat) : (s.setInq q).readTape x = s.readTape x := rfl
@[simp] theorem State.setInq_jumpEntry (s : State) (q : InputQueue) (x : Nat) : (s.setInq q).jumpEntry x = s.jumpEntry x := rfl

/-! ### `emit` -/

@[simp] theorem State.emit_prog (s : State) (e : Event) : (s.emit e).prog = s.prog := rfl
@[simp] theorem State.emit_plen (s : State) (e : Event) : (s.emit e).plen = s.plen := rfl
@[simp] theorem State.emit_debug (s : State) (e : Event) : (s.emit e).debug = s.debug := rfl
@[simp] theorem State.emit_tapeMax (s : State) (e : Event) : (s.emit e).tapeMax = s.tapeMax := rfl
@[simp] theorem State.emit_phase (s : State) (e : Event) : (s.emit e).phase = s.phase := rfl
@[simp] theorem State.emit_rs (s : State) (e : Event) : (s.emit e).rs = s.rs := rfl
@[simp] theorem State.emit_stk (s : State) (e : Event) : (s.emit e).stk = s.stk := rfl
@[simp] theorem State.emit_jt (s : State) (e : Event) : (s.emit e).jt = s.jt := rfl
@[simp] theorem State.emit_ip (s : State) (e : Event) : (s.emit e).ip = s.ip := rfl
@[simp] theorem State.emit_cp (s : State) (e : Event) : (s.emit e).cp = s.cp := rfl
@[simp] theorem State.emit_tape (s : State) (e : Event) : (s.emit e).tape = s.tape := rfl
@[simp] theorem State.emit_tlen (s : State) (e : Event) : (s.emit e).tlen = s.tlen := rfl
@[simp] theorem State.emit_inwait (s : State) (e : Event) : (s.emit e).inwait = s.inwait := rfl
@[simp] theorem State.emit_hist (s : State) (e : Event) : (s.emit e).hist = s.hist ++ [e] := rfl
@[simp] theorem State.emit_inq (s : State) (e : Event) : (s.emit e).inq = s.inq := rfl
@[simp] theorem State.emit_ecause (s : State) (e : Event) : (s.emit e).ecause = s.ecause := rfl
@[simp] theorem State.emit_echar (s : State) (e : Event) : (s.emit e).echar = s.echar := rfl
@[simp] theorem State.emit_epos (s : State) (e : Event) : (s.emit e).epos = s.epos := rfl
@[simp] theorem State.emit_readProg (s : State) (e : Event) (x : Nat) : (s.emit e).readProg x = s.readProg x := rfl
@[simp] theorem State.emit_readTape (s : State) (e : Event) (x : Nat) : (s.emit e).readTape x = s.readTape x := rfl
@[simp] theorem State.emit_jumpEntry (s : State) (e : Event) (x : Nat) : (s.emit e).jumpEntry x = s.jumpEntry x := rfl

/-! ### `raise` -/

@[simp] theorem State.raise_prog (s : State) (c : Cause) (ch : Byte) (pos : Nat) : (s.raise c ch pos).prog = s.prog := rfl
@[simp] theorem State.raise_plen (s : State) (c : Cause) (ch : Byte) (pos : Nat) : (s.raise c ch pos).plen = s.plen := rfl
@[simp] theorem State.raise_debug (s : State) (c : Cause) (ch : Byte) (pos : Nat) : (s.raise c ch pos).debug = s.debug := rfl
@[simp] theorem State.raise_tapeMax (s : State) (c : Cause) (ch : Byte) (pos : Nat) : (s.raise c ch pos).tapeMax = s.tapeMax := rfl
@[simp] theorem State.raise_phase (s : State) (c : Cause) (ch : Byte) (pos : Nat) : (s.raise c ch pos).phase = .fault := rfl
@[simp] theorem State.raise_rs (s : State) (c : Cause) (ch : Byte) (pos : Nat) : (s.raise c ch pos).rs = s.rs := rfl
@[simp] theorem State.raise_stk (s : State) (c : Cause) (ch : Byte) (pos : Nat) : (s.raise c ch pos).stk = s.stk := rfl
@[simp] theorem State.raise_jt (s : State) (c : Cause) (ch : Byte) (pos : Nat) : (s.raise c ch pos).jt = s.jt := rfl
@[simp] theorem State.raise_ip (s : State) (c : Cause) (ch : Byte) (pos : Nat) : (s.raise c ch pos).ip = s.ip := rfl
@[simp] theorem State.raise_cp (s : State) (c : Cause) (ch : Byte) (pos : Nat) : (s.raise c ch pos).cp = s.cp := rfl
@[simp] theorem State.raise_tape (s : State) (c : Cause) (ch : Byte) (pos : Nat) : (s.raise c ch pos).tape = s.tape := rfl
@[simp] theorem State.raise_tlen (s : State) (c : Cause) (ch : Byte) (pos : Nat) : (s.raise c ch pos).tlen = s.tlen := rfl
@[simp] theorem State.raise_inwait (s : State) (c : Cause) (ch : Byte) (pos : Nat) : (s.raise c ch pos).inwait = s.inwait := rfl
@[simp] theorem State.raise_hist (s : State) (c : Cause) (ch : Byte) (pos : Nat) : (s.raise c ch pos).hist = s.hist := rfl
@[simp] theorem State.raise_inq (s : State) (c : Cause) (ch : Byte) (pos : Nat) : (s.raise c ch pos).inq = s.inq := rfl
@[simp] theorem State.raise_ecause (s : State) (c : Cause) (ch : Byte) (pos : Nat) : (s.raise c ch pos).ecause = c := rfl
@[simp] theorem State.raise_echar (s : State) (c : Cause) (ch : Byte) (pos : Nat) : (s.raise c ch pos).echar = ch := rfl
@[simp] theorem State.raise_epos (s : State) (c : Cause) (ch : Byte) (pos : Nat) : (s.raise c ch pos).epos = pos := rfl
@[simp] theorem State.raise_readProg (s : State) (c : Cause) (ch : Byte) (pos : Nat) (x : Nat) : (s.raise c ch pos).readProg x = s.readProg x := rfl
@[simp] theorem State.raise_readTape (s : State) (c : Cause) (ch : Byte) (pos : Nat) (x : Nat) : (s.raise c ch pos).readTape x = s.readTape x := rfl
@[simp] theorem State.raise_jumpEntry (s : State) (c : Cause) (ch : Byte) (pos : Nat) (x : Nat) : (s.raise c ch pos).jumpEntry x = s.jumpEntry x := rfl

end Sys2Proof.Machine
end

