-- ==== Sys2Proof/Laws/Trace.lean ====
section
/-! SUPPORT. What the two trace operations do: they append to `HIST` and leave every other field and reader alone. -/

namespace Sys2Proof.Machine

theorem State.traceStep_hist (s : State) (c : Byte) :
    (s.traceStep c).hist =
      if (decodeCell c).recognised && s.debug && !s.inwait then
        s.hist ++ [.traceStep s.tapeCells s.cp c (branchOf (decodeCell c) s)]
      else s.hist := by
  unfold State.traceStep; split <;> rfl

theorem State.traceProgram_hist (s : State) :
    s.traceProgram.hist = if s.debug then s.hist ++ [.traceProgram s.text] else s.hist := by
  unfold State.traceProgram; split <;> rfl

/-- With the debug flag off nothing is traced (R142). -/
theorem State.traceStep_of_debug_off (s : State) (c : Byte) (h : s.debug = false) : s.traceStep c = s := by
  simp [State.traceStep, h]

@[simp] theorem State.traceStep_prog (s : State) (c : Byte) : (s.traceStep c).prog = s.prog := by
  unfold State.traceStep; split <;> rfl
@[simp] theorem State.traceStep_plen (s : State) (c : Byte) : (s.traceStep c).plen = s.plen := by
  unfold State.traceStep; split <;> rfl
@[simp] theorem State.traceStep_debug (s : State) (c : Byte) : (s.traceStep c).debug = s.debug := by
  unfold State.traceStep; split <;> rfl
@[simp] theorem State.traceStep_tapeMax (s : State) (c : Byte) : (s.traceStep c).tapeMax = s.tapeMax := by
  unfold State.traceStep; split <;> rfl
@[simp] theorem State.traceStep_phase (s : State) (c : Byte) : (s.traceStep c).phase = s.phase := by
  unfold State.traceStep; split <;> rfl
@[simp] theorem State.traceStep_rs (s : State) (c : Byte) : (s.traceStep c).rs = s.rs := by
  unfold State.traceStep; split <;> rfl
@[simp] theorem State.traceStep_stk (s : State) (c : Byte) : (s.traceStep c).stk = s.stk := by
  unfold State.traceStep; split <;> rfl
@[simp] theorem State.traceStep_jt (s : State) (c : Byte) : (s.traceStep c).jt = s.jt := by
  unfold State.traceStep; split <;> rfl
@[simp] theorem State.traceStep_ip (s : State) (c : Byte) : (s.traceStep c).ip = s.ip := by
  unfold State.traceStep; split <;> rfl
@[simp] theorem State.traceStep_cp (s : State) (c : Byte) : (s.traceStep c).cp = s.cp := by
  unfold State.traceStep; split <;> rfl
@[simp] theorem State.traceStep_tape (s : State) (c : Byte) : (s.traceStep c).tape = s.tape := by
  unfold State.traceStep; split <;> rfl
@[simp] theorem State.traceStep_tlen (s : State) (c : Byte) : (s.traceStep c).tlen = s.tlen := by
  unfold State.traceStep; split <;> rfl
@[simp] theorem State.traceStep_inwait (s : State) (c : Byte) : (s.traceStep c).inwait = s.inwait := by
  unfold State.traceStep; split <;> rfl
@[simp] theorem State.traceStep_inq (s : State) (c : Byte) : (s.traceStep c).inq = s.inq := by
  unfold State.traceStep; split <;> rfl
@[simp] theorem State.traceStep_ecause (s : State) (c : Byte) : (s.traceStep c).ecause = s.ecause := by
  unfold State.traceStep; split <;> rfl
@[simp] theorem State.traceStep_echar (s : State) (c : Byte) : (s.traceStep c).echar = s.echar := by
  unfold State.traceStep; split <;> rfl
@[simp] theorem State.traceStep_epos (s : State) (c : Byte) : (s.traceStep c).epos = s.epos := by
  unfold State.traceStep; split <;> rfl
@[simp] theorem State.traceStep_readProg (s : State) (c : Byte) (x : Nat) : (s.traceStep c).readProg x = s.readProg x := by
  unfold State.traceStep; split <;> rfl
@[simp] theorem State.traceStep_readTape (s : State) (c : Byte) (x : Nat) : (s.traceStep c).readTape x = s.readTape x := by
  unfold State.traceStep; split <;> rfl
@[simp] theorem State.traceStep_cur (s : State) (c : Byte) : (s.traceStep c).cur = s.cur := by
  unfold State.traceStep; split <;> rfl
@[simp] theorem State.traceStep_jumpEntry (s : State) (c : Byte) (x : Nat) : (s.traceStep c).jumpEntry x = s.jumpEntry x := by
  unfold State.traceStep; split <;> rfl

@[simp] theorem State.traceProgram_prog (s : State) : (s.traceProgram).prog = s.prog := by
  unfold State.traceProgram; split <;> rfl
@[simp] theorem State.traceProgram_plen (s : State) : (s.traceProgram).plen = s.plen := by
  unfold State.traceProgram; split <;> rfl
@[simp] theorem State.traceProgram_debug (s : State) : (s.traceProgram).debug = s.debug := by
  unfold State.traceProgram; split <;> rfl
@[simp] theorem State.traceProgram_tapeMax (s : State) : (s.traceProgram).tapeMax = s.tapeMax := by
  unfold State.traceProgram; split <;> rfl
@[simp] theorem State.traceProgram_phase (s : State) : (s.traceProgram).phase = s.phase := by
  unfold State.traceProgram; split <;> rfl
@[simp] theorem State.traceProgram_rs (s : State) : (s.traceProgram).rs = s.rs := by
  unfold State.traceProgram; split <;> rfl
@[simp] theorem State.traceProgram_stk (s : State) : (s.traceProgram).stk = s.stk := by
  unfold State.traceProgram; split <;> rfl
@[simp] theorem State.traceProgram_jt (s : State) : (s.traceProgram).jt = s.jt := by
  unfold State.traceProgram; split <;> rfl
@[simp] theorem State.traceProgram_ip (s : State) : (s.traceProgram).ip = s.ip := by
  unfold State.traceProgram; split <;> rfl
@[simp] theorem State.traceProgram_cp (s : State) : (s.traceProgram).cp = s.cp := by
  unfold State.traceProgram; split <;> rfl
@[simp] theorem State.traceProgram_tape (s : State) : (s.traceProgram).tape = s.tape := by
  unfold State.traceProgram; split <;> rfl
@[simp] theorem State.traceProgram_tlen (s : State) : (s.traceProgram).tlen = s.tlen := by
  unfold State.traceProgram; split <;> rfl
@[simp] theorem State.traceProgram_inwait (s : State) : (s.traceProgram).inwait = s.inwait := by
  unfold State.traceProgram; split <;> rfl
@[simp] theorem State.traceProgram_inq (s : State) : (s.traceProgram).inq = s.inq := by
  unfold State.traceProgram; split <;> rfl
@[simp] theorem State.traceProgram_ecause (s : State) : (s.traceProgram).ecause = s.ecause := by
  unfold State.traceProgram; split <;> rfl
@[simp] theorem State.traceProgram_echar (s : State) : (s.traceProgram).echar = s.echar := by
  unfold State.traceProgram; split <;> rfl
@[simp] theorem State.traceProgram_epos (s : State) : (s.traceProgram).epos = s.epos := by
  unfold State.traceProgram; split <;> rfl
@[simp] theorem State.traceProgram_readProg (s : State) (x : Nat) : (s.traceProgram).readProg x = s.readProg x := by
  unfold State.traceProgram; split <;> rfl
@[simp] theorem State.traceProgram_readTape (s : State) (x : Nat) : (s.traceProgram).readTape x = s.readTape x := by
  unfold State.traceProgram; split <;> rfl
@[simp] theorem State.traceProgram_cur (s : State) : (s.traceProgram).cur = s.cur := by
  unfold State.traceProgram; split <;> rfl
@[simp] theorem State.traceProgram_jumpEntry (s : State) (x : Nat) : (s.traceProgram).jumpEntry x = s.jumpEntry x := by
  unfold State.traceProgram; split <;> rfl

end Sys2Proof.Machine
end

