-- ==== Sys2Proof/Laws/Ops.lean ====
section
/-! SUPPORT. One specification lemma for each shared operation: what it can answer and what it changes. Later proofs
cite these and do not unfold the operations. -/

namespace Sys2Proof.Machine

open Sys2Proof.Safety

/-! ### Tape cells -/

theorem State.readTape_of_lt {s : State} {a : Nat} (h : a < s.tlen) : s.readTape a = some (s.tape.read a) := by
  simp [State.readTape, h]

theorem State.readTape_eq_none {s : State} {a : Nat} : s.readTape a = none ↔ s.tlen ≤ a := by
  simp [State.readTape]

/-- A cell that has a value exists. -/
theorem State.lt_of_readTape {s : State} {a : Nat} {v : Byte} (h : s.readTape a = some v) : a < s.tlen := by
  by_contra hc
  simp [State.readTape, hc] at h

theorem State.lt_of_cur {s : State} {v : Byte} (h : s.cur = some v) : s.cp < s.tlen := State.lt_of_readTape h

theorem State.readTape_writeTape_same {s : State} {a : Nat} (v : Byte) (h : a < s.tlen) :
    (s.writeTape a v).readTape a = some v := by
  simp [State.readTape, h, Memory.read_write_same]

theorem State.readTape_writeTape_other (s : State) (a b : Nat) (v : Byte) (h : b ≠ a) :
    (s.writeTape a v).readTape b = s.readTape b := by
  simp [State.readTape, Memory.read_write_other _ a b v h]

theorem State.readTape_tapeAppend_same (s : State) : s.tapeAppend.readTape s.tlen = some 0 := by
  simp [State.readTape, Memory.read_write_same]

theorem State.readTape_tapeAppend_below {s : State} {a : Nat} (h : a < s.tlen) :
    s.tapeAppend.readTape a = s.readTape a := by
  have := Memory.read_write_other s.tape s.tlen a 0 (Nat.ne_of_lt h)
  simpa [State.readTape, h, Nat.lt_succ_of_lt h] using this

/-! ### Program cells -/

theorem State.readProg_of_lt {s : State} {a : Nat} (h : a < s.plen) : s.readProg a = some (s.prog.read a) := by
  simp [State.readProg, h]

theorem State.readProg_eq_none {s : State} {a : Nat} : s.readProg a = none ↔ s.plen ≤ a := by
  simp [State.readProg]

theorem State.lt_of_readProg {s : State} {a : Nat} {c : Byte} (h : s.readProg a = some c) : a < s.plen := by
  by_contra hc
  simp [State.readProg, hc] at h

/-! ### The current cell -/

/-- `withCur` goes on exactly when the current cell exists, with its value. -/
theorem State.withCur_next {s t : State} {k : Byte → Result} (h : s.withCur k = .next t) :
    ∃ v, s.cur = some v ∧ k v = .next t := by
  unfold State.withCur at h
  split at h
  · next v hv => exact ⟨v, hv, h⟩
  · cases h

theorem State.withCur_of_cur {s : State} {v : Byte} (k : Byte → Result) (h : s.cur = some v) :
    s.withCur k = k v := by
  simp [State.withCur, h]

theorem State.withCur_of_absent {s : State} (k : Byte → Result) (h : s.tlen ≤ s.cp) :
    s.withCur k = .fault .noSuchTapeCell := by
  simp [State.withCur, State.cur, State.readTape_eq_none.2 h]

/-! ### Cell values -/

theorem wrap_toNat (a : Int) : ((wrap a).toNat : Int) = a % 256 := by
  simp only [wrap, BitVec.toNat_ofInt]
  omega

/-- R102: `INC(v) = (v + 1) mod 256`. -/
theorem incCell_toNat (v : Byte) : (incCell v).toNat = (v.toNat + 1) % 256 := by
  have := wrap_toNat ((v.toNat : Int) + 1)
  simp only [incCell]
  omega

/-- R102: `DEC(v) = (v + 255) mod 256`. -/
theorem decCell_toNat (v : Byte) : (decCell v).toNat = (v.toNat + 255) % 256 := by
  have := wrap_toNat ((v.toNat : Int) - 1)
  simp only [decCell]
  omega

/-! ### The input port -/

/-- A unit has a value to store exactly when it is valid (R118), and the value is the code point itself. -/
theorem validValue_eq_some {u : InputUnit} {v : Byte} :
    validValue u = some v ↔ ∃ c, u = [c] ∧ c ≤ 255 ∧ v = BitVec.ofNat 8 c := by
  match u with
  | [] => simp [validValue]
  | [c] =>
    simp only [validValue]
    split
    · next h => simp [h, eq_comm]
    · next h => simp [h]
  | _ :: _ :: _ => simp [validValue]

theorem validValue_eq_none {u : InputUnit} : validValue u = none ↔ ¬ ValidUnit u := by
  match u with
  | [] => simp [validValue, ValidUnit]
  | [c] => simp [validValue, ValidUnit]
  | _ :: _ :: _ => simp [validValue, ValidUnit]

/-- One spelling for the units to come: those of the host's machine are those in its open environment. -/
@[simp] theorem unitAt_eq_unitFrom (q : InputQueue) (n : Nat) : unitAt q n = unitFrom Config.endlessUnit q n := rfl

/-- Taking answers the next unit and leaves the sequence of the later ones. -/
theorem InputQueue.takeFrom_eq_some {env : Environment} {q q' : InputQueue} {u : InputUnit}
    (h : q.takeFrom env = some (u, q')) :
    unitFrom env q 0 = some u ∧ ∀ n, unitFrom env q' n = unitFrom env q (n + 1) := by
  obtain ⟨given, endless⟩ := q
  cases given with
  | cons u' rest =>
    obtain ⟨rfl, rfl⟩ : u' = u ∧ _ = q' := by simpa [InputQueue.takeFrom] using h
    refine ⟨by simp [unitFrom], fun n => ?_⟩
    simp only [unitFrom, List.getElem?_cons_succ, List.length_cons]
    rw [show n + 1 - (rest.length + 1) = n - rest.length by omega]
  | nil =>
    cases endless with
    | none => simp [InputQueue.takeFrom] at h
    | some k =>
      obtain ⟨rfl, rfl⟩ : _ = u ∧ _ = q' := by simpa [InputQueue.takeFrom] using h
      refine ⟨by simp [unitFrom], fun n => ?_⟩
      simp only [unitFrom, List.getElem?_nil, List.length_nil, Option.map_some, Nat.sub_zero]
      rw [show k + 1 + n = k + (n + 1) by omega]

/-- Taking has no answer exactly when no unit is left. -/
theorem InputQueue.takeFrom_eq_none {env : Environment} {q : InputQueue} :
    q.takeFrom env = none ↔ unitFrom env q 0 = none := by
  obtain ⟨given, endless⟩ := q
  cases given <;> cases endless <;> simp [InputQueue.takeFrom, unitFrom]

/-- What is taken depends on the environment through the next unit only. -/
theorem InputQueue.takeFrom_congr {env env' : Environment} {q : InputQueue}
    (h : unitFrom env q 0 = unitFrom env' q 0) : q.takeFrom env = q.takeFrom env' := by
  obtain ⟨given, endless⟩ := q
  cases given <;> cases endless <;> simp_all [InputQueue.takeFrom, unitFrom]

/-- `InTake()` changes `INQ` and nothing else. -/
theorem State.inTakeFrom_eq_some {env : Environment} {s s' : State} {u : InputUnit}
    (h : s.inTakeFrom env = some (u, s')) : ∃ q, s.inq.takeFrom env = some (u, q) ∧ s' = s.setInq q := by
  unfold State.inTakeFrom at h
  split at h
  · next u' q hq =>
    obtain ⟨rfl, rfl⟩ : u' = u ∧ _ = s' := by simpa using h
    exact ⟨q, hq, rfl⟩
  · cases h

theorem State.inTakeFrom_eq_none {env : Environment} {s : State} :
    s.inTakeFrom env = none ↔ unitFrom env s.inq 0 = none := by
  rw [← InputQueue.takeFrom_eq_none]
  unfold State.inTakeFrom
  split <;> simp_all

/-- Where a unit comes next, `InTake()` answers it and leaves the later ones. -/
theorem State.inTakeFrom_of_unit {env : Environment} {s : State} {u : InputUnit}
    (h : unitFrom env s.inq 0 = some u) :
    ∃ q, s.inTakeFrom env = some (u, s.setInq q) ∧ ∀ n, unitFrom env q n = unitFrom env s.inq (n + 1) := by
  cases ht : s.inTakeFrom env with
  | none => rw [State.inTakeFrom_eq_none.1 ht] at h; cases h
  | some p =>
    obtain ⟨u', s'⟩ := p
    obtain ⟨q, hq, rfl⟩ := State.inTakeFrom_eq_some ht
    obtain ⟨hu, hn⟩ := InputQueue.takeFrom_eq_some hq
    obtain rfl : u = u' := by simpa [hu] using h.symm
    exact ⟨q, rfl, hn⟩

/-- Unit number `n` of the first `m` units of `env`. -/
theorem unitFrom_firstUnits (env env' : Environment) {m n : Nat} (h : n < m) :
    unitFrom env' (firstUnits env m) n = some (env n) := by
  simp [unitFrom, firstUnits, h]

/-! ### Pointer moves and jumps -/

theorem State.atTapeLimit_iff {s : State} :
    s.atTapeLimit = true ↔ s.cp + 1 = s.tlen ∧ s.tapeMax = some s.tlen := by
  simp [State.atTapeLimit]

/-- The tape grows by exactly one zero cell when the pointer is at its length, and not otherwise (R45). -/
theorem State.extendTape_cases (s : State) :
    (s.cp = s.tlen ∧ s.extendTape = s.tapeAppend) ∨ (s.cp ≠ s.tlen ∧ s.extendTape = s) := by
  by_cases h : s.cp = s.tlen
  · exact .inl ⟨h, by simp [State.extendTape, h]⟩
  · exact .inr ⟨h, by simp [State.extendTape, h]⟩

/-- A jump changes `IP` and nothing else. -/
theorem State.jumpIf_eq (s : State) (b : Bool) :
    s.jumpIf b = s.setIp (if b then s.jumpEntry s.ip else s.ip) := by
  cases b <;> rfl

/-- Where `JT` has an entry, that entry is the jump's target. -/
theorem State.jumpEntry_of_get {s : State} {a q : Nat} (h : Assoc.get s.jt a = some q) : s.jumpEntry a = q := by
  simp [State.jumpEntry, h]

/-! ### Views of the history -/

@[simp] theorem outputOf_nil : outputOf [] = [] := rfl
@[simp] theorem outputOf_out (v : Byte) (es : List Event) : outputOf (.out v :: es) = v :: outputOf es := rfl
@[simp] theorem outputOf_diag (es : List Event) : outputOf (.diag :: es) = outputOf es := rfl
@[simp] theorem outputOf_traceProgram (text : List Byte) (es : List Event) :
    outputOf (.traceProgram text :: es) = outputOf es := rfl
@[simp] theorem outputOf_traceStep (tape : List Byte) (cp : Nat) (ch : Byte) (b : Branch) (es : List Event) :
    outputOf (.traceStep tape cp ch b :: es) = outputOf es := rfl
@[simp] theorem tracesOf_nil : tracesOf [] = [] := rfl
@[simp] theorem tracesOf_out (v : Byte) (es : List Event) : tracesOf (.out v :: es) = tracesOf es := rfl
@[simp] theorem tracesOf_diag (es : List Event) : tracesOf (.diag :: es) = tracesOf es := rfl
@[simp] theorem tracesOf_traceProgram (text : List Byte) (es : List Event) :
    tracesOf (.traceProgram text :: es) = .traceProgram text :: tracesOf es := rfl
@[simp] theorem tracesOf_traceStep (tape : List Byte) (cp : Nat) (ch : Byte) (b : Branch) (es : List Event) :
    tracesOf (.traceStep tape cp ch b :: es) = .traceStep tape cp ch b :: tracesOf es := rfl

@[simp] theorem outputOf_append (es fs : List Event) : outputOf (es ++ fs) = outputOf es ++ outputOf fs :=
  List.filterMap_append

@[simp] theorem tracesOf_append (es fs : List Event) : tracesOf (es ++ fs) = tracesOf es ++ tracesOf fs :=
  List.filter_append es fs

end Sys2Proof.Machine
end

