-- ==== Sys2Proof/Laws/Instr.lean ====
section
/-! SUPPORT. What each meaning and each step relation can answer: one inversion lemma each ("if it answers next t,
then ..."), with the guards. -/

namespace Sys2Proof.Machine

open Sys2Proof.Safety

theorem execInc_next {s t : State} (h : execInc s = .next t) :
    ∃ v, s.cur = some v ∧ t = (s.writeCur (incCell v)).advance := by
  obtain ⟨v, hv, ht⟩ := State.withCur_next h
  exact ⟨v, hv, by simpa using ht.symm⟩

theorem execDec_next {s t : State} (h : execDec s = .next t) :
    ∃ v, s.cur = some v ∧ t = (s.writeCur (decCell v)).advance := by
  obtain ⟨v, hv, ht⟩ := State.withCur_next h
  exact ⟨v, hv, by simpa using ht.symm⟩

theorem execOut_next {s t : State} (h : execOut s = .next t) :
    ∃ v, s.cur = some v ∧ t = (s.emit (.out v)).advance := by
  obtain ⟨v, hv, ht⟩ := State.withCur_next h
  exact ⟨v, hv, by simpa using ht.symm⟩

theorem execLoops_next {s t : State} (h : execLoops s = .next t) :
    ∃ v, s.cur = some v ∧ t = (s.jumpIf (loopsTaken v)).advance := by
  obtain ⟨v, hv, ht⟩ := State.withCur_next h
  exact ⟨v, hv, by simpa using ht.symm⟩

theorem execLoope_next {s t : State} (h : execLoope s = .next t) :
    ∃ v, s.cur = some v ∧ t = (s.jumpIf (loopeTaken v)).advance := by
  obtain ⟨v, hv, ht⟩ := State.withCur_next h
  exact ⟨v, hv, by simpa using ht.symm⟩

/-- `RIGHT` always has a next state: the `TapeLimit` entry, or the move. -/
theorem execRight_next {s t : State} (h : execRight s = .next t) :
    (s.atTapeLimit = true ∧ t = s.raise .tapeLimit codeRight s.ip) ∨
    (s.atTapeLimit = false ∧ t = ((s.setCp (s.cp + 1)).extendTape).advance) := by
  unfold execRight at h
  split at h
  · next hl => exact .inl ⟨hl, by simpa using h.symm⟩
  · next hl => exact .inr ⟨by simpa using hl, by simpa using h.symm⟩

/-- `LEFT` always has a next state: the `NegativeTapeIndex` entry, or the move. -/
theorem execLeft_next {s t : State} (h : execLeft s = .next t) :
    (s.cp = 0 ∧ t = s.raise .negativeTapeIndex codeLeft s.ip) ∨
    (s.cp ≠ 0 ∧ t = (s.setCp (s.cp - 1)).advance) := by
  unfold execLeft at h
  split at h
  · next hl => exact .inl ⟨hl, by simpa using h.symm⟩
  · next hl => exact .inr ⟨hl, by simpa using h.symm⟩

/-- `IN` with a next state has taken one unit, and either stored its code point or rejected it. -/
theorem execInFrom_next {env : Environment} {s t : State} (h : execInFrom env s = .next t) :
    ∃ u q, s.inq.takeFrom env = some (u, q) ∧
      ((∃ v w, validValue u = some v ∧ s.cur = some w ∧ t = (s.setInq q).acceptInput v) ∨
       (validValue u = none ∧ t = (s.setInq q).rejectInput)) := by
  unfold execInFrom at h
  split at h
  · cases h
  · next u s' hs =>
    obtain ⟨q, hq, rfl⟩ := State.inTakeFrom_eq_some hs
    refine ⟨u, q, hq, ?_⟩
    split at h
    · next v hv =>
      obtain ⟨w, hw, ht⟩ := State.withCur_next h
      exact .inl ⟨v, w, hv, hw, by simpa using ht.symm⟩
    · next hv => exact .inr ⟨hv, by simpa using h.symm⟩

theorem execNop_next {s t : State} (h : execNop s = .next t) : t = s.advance := by
  simpa [execNop] using h.symm

/-- What the instruction in a cell can do when it has a next state, cell by cell: this is the one case analysis that
the rules about every step need. -/
theorem execFrom_next {env : Environment} {s t : State} {c : Byte} (h : execFrom env (decodeCell c) s = .next t) :
    ((c = codeInc ∨ c = codeDec) ∧ ∃ v w, s.cur = some w ∧ t = (s.writeCur v).advance) ∨
    (c = codeIn ∧ ∃ u q, s.inq.takeFrom env = some (u, q) ∧
      ((∃ v w, validValue u = some v ∧ s.cur = some w ∧ t = (s.setInq q).acceptInput v) ∨
       (validValue u = none ∧ t = (s.setInq q).rejectInput))) ∨
    (c = codeOut ∧ ∃ v, s.cur = some v ∧ t = (s.emit (.out v)).advance) ∨
    (c = codeLeft ∧ ((s.cp = 0 ∧ t = s.raise .negativeTapeIndex codeLeft s.ip) ∨
      (s.cp ≠ 0 ∧ t = (s.setCp (s.cp - 1)).advance))) ∨
    (c = codeRight ∧ ((s.cp + 1 = s.tlen ∧ s.tapeMax = some s.tlen ∧ t = s.raise .tapeLimit codeRight s.ip) ∨
      (s.cp + 1 = s.tlen ∧ s.tapeMax ≠ some s.tlen ∧ t = ((s.setCp (s.cp + 1)).tapeAppend).advance) ∨
      (s.cp + 1 ≠ s.tlen ∧ t = (s.setCp (s.cp + 1)).advance))) ∨
    ((c = codeLoops ∨ c = codeLoope) ∧
      ∃ b : Bool, (∃ v, s.cur = some v) ∧ t = (s.setIp (if b then s.jumpEntry s.ip else s.ip)).advance) ∨
    (isInert c = true ∧ t = s.advance) := by
  rcases decodeCell_cases c with ⟨hc, hd⟩ | ⟨hc, hd⟩ | ⟨hc, hd⟩ | ⟨hc, hd⟩ | ⟨hc, hd⟩ | ⟨hc, hd⟩ | ⟨hc, hd⟩ |
    ⟨hc, hd⟩ | ⟨hc, hd⟩ <;> rw [hd] at h
  · obtain ⟨w, hw, rfl⟩ := execInc_next h
    exact .inl ⟨.inl hc, _, w, hw, rfl⟩
  · exact .inr (.inl ⟨hc, execInFrom_next h⟩)
  · obtain ⟨w, hw, rfl⟩ := execDec_next h
    exact .inl ⟨.inr hc, _, w, hw, rfl⟩
  · exact .inr (.inr (.inl ⟨hc, execOut_next h⟩))
  · exact .inr (.inr (.inr (.inl ⟨hc, execLeft_next h⟩)))
  · refine .inr (.inr (.inr (.inr (.inl ⟨hc, ?_⟩))))
    rcases execRight_next h with ⟨ha, hb⟩ | ⟨ha, hb⟩
    · rw [State.atTapeLimit_iff] at ha
      exact .inl ⟨ha.1, ha.2, hb⟩
    · rw [← Bool.not_eq_true, State.atTapeLimit_iff] at ha
      rcases State.extendTape_cases (s.setCp (s.cp + 1)) with ⟨hx, he⟩ | ⟨hx, he⟩ <;> rw [he] at hb
      · exact .inr (.inl ⟨hx, fun hm => ha ⟨hx, hm⟩, hb⟩)
      · exact .inr (.inr ⟨hx, hb⟩)
  · obtain ⟨v, hv, rfl⟩ := execLoops_next h
    rw [State.jumpIf_eq]
    exact .inr (.inr (.inr (.inr (.inr (.inl ⟨.inl hc, _, ⟨v, hv⟩, rfl⟩)))))
  · obtain ⟨v, hv, rfl⟩ := execLoope_next h
    rw [State.jumpIf_eq]
    exact .inr (.inr (.inr (.inr (.inr (.inl ⟨.inr hc, _, ⟨v, hv⟩, rfl⟩)))))
  · exact .inr (.inr (.inr (.inr (.inr (.inr ⟨hc, execNop_next h⟩)))))

/-- The host's dispatch is the dispatch in the open environment. -/
theorem exec_eq_execFrom (i : Instr) (s : State) : exec i s = execFrom Config.endlessUnit i s := by
  cases i <;> rfl

/-- The host's step is the step in the open environment. -/
theorem step_eq_stepFrom (s : State) : step s = stepFrom Config.endlessUnit s := by
  rw [step, stepFrom, show exec = execFrom Config.endlessUnit from funext fun i => funext (exec_eq_execFrom i)]

/-- Only `IN` takes anything from the environment. -/
theorem execFrom_congr {env env' : Environment} {i : Instr} (s : State) (h : i ≠ .input) :
    execFrom env i s = execFrom env' i s := by
  cases i <;> first | rfl | exact absurd rfl h

/-- A resolver step is one of the rules R79 to R84. -/
theorem State.scan_cases (s : State) :
    (s.readProg s.rs = some codeLoops ∧ s.scan = s.scanOpener) ∨
    (∃ i, s.readProg s.rs = some codeLoope ∧ s.stk.getLast? = some i ∧ s.scan = s.scanCloser i) ∨
    (s.readProg s.rs = some codeLoope ∧ s.stk = [] ∧ s.scan = s.scanUnmatchedCloser) ∨
    (∃ c, s.readProg s.rs = some c ∧ c ≠ codeLoops ∧ c ≠ codeLoope ∧ s.scan = s.scanOther) ∨
    (s.readProg s.rs = none ∧ s.stk = [] ∧ s.scan = s.scanSuccess) ∨
    (∃ b, s.readProg s.rs = none ∧ s.stk.head? = some b ∧ s.scan = s.scanLeftOver b) := by
  cases hc : s.readProg s.rs with
  | none =>
    cases hb : s.stk.head? with
    | none =>
      have : s.stk = [] := List.head?_eq_none_iff.1 hb
      simp [State.scan, hc, State.bottom, this]
    | some b => simp [State.scan, hc, State.bottom, hb]
  | some c =>
    by_cases h1 : c = codeLoops
    · simp [State.scan, hc, h1]
    · by_cases h2 : c = codeLoope
      · cases ht : s.stk.getLast? with
        | none =>
          have : s.stk = [] := List.getLast?_eq_none_iff.1 ht
          subst h2
          simp [State.scan, hc, State.top, this, h1]
        | some i =>
          subst h2
          simp [State.scan, hc, State.top, ht, h1]
      · simp [State.scan, hc, h1, h2]

/-- A step with a next state is a resolver step, the halt, or the meaning of the fetched instruction after its trace. -/
theorem stepBy_next {meaning : Instr → State → Result} {s t : State} (h : stepBy meaning s = .next t) :
    (s.phase = .resolve ∧ t = s.scan) ∨
    (s.phase = .run ∧ s.ip = s.plen ∧ t = s.completeRun) ∨
    (s.phase = .run ∧ ∃ c, s.fetch = some c ∧ meaning (decodeCell c) (s.traceStep c) = .next t) := by
  unfold stepBy at h
  split at h
  · next hp => exact .inl ⟨hp, by simpa [resolveStep] using h.symm⟩
  · next hp =>
    unfold runStep at h
    split at h
    · next hip => exact .inr (.inl ⟨hp, hip, by simpa using h.symm⟩)
    · split at h
      · next c hc => exact .inr (.inr ⟨hp, c, hc, h⟩)
      · cases h
  · cases h
  · cases h

/-- The same of the host's step; `exec_eq_execFrom` leads on to the cases of `execFrom_next`. -/
theorem step_next {s t : State} (h : step s = .next t) :
    (s.phase = .resolve ∧ t = s.scan) ∨
    (s.phase = .run ∧ s.ip = s.plen ∧ t = s.completeRun) ∨
    (s.phase = .run ∧ ∃ c, s.fetch = some c ∧ exec (decodeCell c) (s.traceStep c) = .next t) :=
  stepBy_next h

/-- A step of the resolver. -/
theorem stepBy_of_resolve (meaning : Instr → State → Result) {s : State} (h : s.phase = .resolve) :
    stepBy meaning s = .next s.scan := by
  simp [stepBy, h, resolveStep]

/-- A step of the engine where the fetch answers a cell. -/
theorem stepBy_of_fetch (meaning : Instr → State → Result) {s : State} {c : Byte} (h : s.phase = .run)
    (hc : s.fetch = some c) : stepBy meaning s = meaning (decodeCell c) (s.traceStep c) := by
  simp [stepBy, h, runStep, hc, Nat.ne_of_lt (State.lt_of_readProg hc)]

/-- The halt. -/
theorem stepBy_of_end (meaning : Instr → State → Result) {s : State} (h : s.phase = .run) (hi : s.ip = s.plen) :
    stepBy meaning s = .next s.completeRun := by
  simp [stepBy, h, runStep, hi]

end Sys2Proof.Machine
end

