-- ==== Sys2Proof/Laws/PerInstr.lean ====
section
/-! SUPPORT. The family `OneCell`: every instruction occupies exactly one program cell (spec/30_encoding.md R60), and
the decoder takes exactly that cell from the front of any sequence it is followed by. One lemma a constructor. -/

namespace Sys2Proof.Laws.OneCell

/-- R60: the encoding of `i` is one cell, and decoding it leaves whatever follows. -/
def Statement (i : Instr) : Prop :=
  (encode i).length = 1 ∧ ∀ rest, ∃ j, decode (encode i ++ rest) = .ok (j, rest)

theorem inc : Statement .inc := ⟨rfl, fun _ => ⟨_, rfl⟩⟩
theorem input : Statement .input := ⟨rfl, fun _ => ⟨_, rfl⟩⟩
theorem dec : Statement .dec := ⟨rfl, fun _ => ⟨_, rfl⟩⟩
theorem out : Statement .out := ⟨rfl, fun _ => ⟨_, rfl⟩⟩
theorem left : Statement .left := ⟨rfl, fun _ => ⟨_, rfl⟩⟩
theorem right : Statement .right := ⟨rfl, fun _ => ⟨_, rfl⟩⟩
theorem loops : Statement .loops := ⟨rfl, fun _ => ⟨_, rfl⟩⟩
theorem loope : Statement .loope := ⟨rfl, fun _ => ⟨_, rfl⟩⟩
theorem nop (c : Byte) : Statement (.nop c) := ⟨rfl, fun _ => ⟨_, rfl⟩⟩

end Sys2Proof.Laws.OneCell
end

