-- ==== Sys2Proof/Laws/Run.lean ====
section
/-! SUPPORT. Runs of a machine: `n` steps with a next state each. The one induction over a run is packaged here, for every
machine, so that it serves the host's machine and the machine in any environment alike; and the actions of a session. -/

namespace Sys2Proof.Machine

section AnyMachine

variable {M : Host.Core} {s t : M.State}

/-- A run of one step more, seen from its first step. -/
theorem coreRun_succ (n : Nat) (h : M.step s = .next t) : M.run (n + 1) s = M.run n t := by
  simp only [Host.Core.run, h]

/-- A run stops where its first step does. -/
theorem coreRun_succ_fault {r : M.Fault} (n : Nat) (h : M.step s = .fault r) : M.run (n + 1) s = .fault r := by
  simp only [Host.Core.run, h]

/-- A run is refused where its first step is. -/
theorem coreRun_succ_refused {r : M.Refusal} (n : Nat) (h : M.step s = .refused r) :
    M.run (n + 1) s = .refused r := by
  simp only [Host.Core.run, h]

/-- A run of at least one step that reaches a state begins with a step. -/
theorem coreRun_succ_next {n : Nat} (h : M.run (n + 1) s = .next t) :
    ∃ s', M.step s = .next s' ∧ M.run n s' = .next t := by
  cases hs : M.step s with
  | next s' => exact ⟨s', rfl, by rw [← coreRun_succ n hs]; exact h⟩
  | fault r => rw [coreRun_succ_fault n hs] at h; cases h
  | refused r => rw [coreRun_succ_refused n hs] at h; cases h

/-- Two runs, one after the other. -/
theorem coreRun_add {m n : Nat} (h : M.run m s = .next t) : M.run (m + n) s = M.run n t := by
  induction m generalizing s with
  | zero =>
    cases h
    rw [Nat.zero_add]
  | succ m ih =>
    obtain ⟨s', hs, hr⟩ := coreRun_succ_next h
    rw [Nat.succ_add, coreRun_succ (m + n) hs, ih hr]

/-- What holds at the start and is kept by every step holds after every run. -/
theorem coreRun_keeps {P : M.State → Prop} (hstep : ∀ s t, P s → M.step s = .next t → P t) {n : Nat}
    (h : M.run n s = .next t) (hs : P s) : P t := by
  induction n generalizing s with
  | zero =>
    cases h
    exact hs
  | succ n ih =>
    obtain ⟨s', hn, hr⟩ := coreRun_succ_next h
    exact ih hr (hstep s s' hs hn)

end AnyMachine

/-! ### The host's machine -/

theorem run_succ {s t : State} (n : Nat) (h : step s = .next t) :
    Host.Core.run Sys2Proof.core (n + 1) s = Host.Core.run Sys2Proof.core n t :=
  coreRun_succ (M := Sys2Proof.core) n h

theorem run_succ_fault {s : State} {r : Fault} (n : Nat) (h : step s = .fault r) :
    Host.Core.run Sys2Proof.core (n + 1) s = .fault r :=
  coreRun_succ_fault (M := Sys2Proof.core) n h

theorem run_succ_refused {s : State} {r : Refusal} (n : Nat) (h : step s = .refused r) :
    Host.Core.run Sys2Proof.core (n + 1) s = .refused r :=
  coreRun_succ_refused (M := Sys2Proof.core) n h

theorem run_succ_next {s t : State} {n : Nat} (h : Host.Core.run Sys2Proof.core (n + 1) s = .next t) :
    ∃ s', step s = .next s' ∧ Host.Core.run Sys2Proof.core n s' = .next t :=
  coreRun_succ_next (M := Sys2Proof.core) h

theorem run_add {s t : State} {m n : Nat} (h : Host.Core.run Sys2Proof.core m s = .next t) :
    Host.Core.run Sys2Proof.core (m + n) s = Host.Core.run Sys2Proof.core n t :=
  coreRun_add (M := Sys2Proof.core) h

theorem run_keeps {P : State → Prop} (hstep : ∀ s t, P s → step s = .next t → P t) {s t : State} {n : Nat}
    (h : Host.Core.run Sys2Proof.core n s = .next t) (hs : P s) : P t :=
  coreRun_keeps (M := Sys2Proof.core) hstep h hs

/-! ### Sessions -/

@[simp] theorem Session.kill_machine (x : Session) (input : InputQueue) :
    (x.kill input).machine = x.machine.restart input := rfl
@[simp] theorem Session.kill_earlier (x : Session) (input : InputQueue) : (x.kill input).earlier = x.delivered := rfl
@[simp] theorem Session.relaunch_earlier (x : Session) (text : List Byte) (debug : Bool) (tapeMax : Option Nat)
    (input : InputQueue) : (x.relaunch text debug tapeMax input).earlier = x.delivered := rfl
@[simp] theorem State.restart_hist (s : State) (input : InputQueue) : (s.restart input).hist = [] := rfl
@[simp] theorem State.supply_hist (s : State) (u : InputUnit) : (s.supply u).hist = s.hist := rfl
@[simp] theorem Session.acts_nil (env : Environment) (x : Session) : x.acts env [] = x := rfl
@[simp] theorem Session.acts_cons (env : Environment) (x : Session) (a : Action) (as : List Action) :
    x.acts env (a :: as) = (x.act env a).acts env as := rfl

/-- A step action is the machine's step where it has one, and nothing where it has none. -/
theorem Session.act_step_cases (env : Environment) (x : Session) :
    (∃ t, stepFrom env x.machine = .next t ∧ x.act env .step = { x with machine := t }) ∨
    ((∀ t, stepFrom env x.machine ≠ .next t) ∧ x.act env .step = x) := by
  unfold Session.act
  cases h : stepFrom env x.machine with
  | next t => exact .inl ⟨t, rfl, rfl⟩
  | fault r => exact .inr ⟨fun _ => nofun, rfl⟩
  | refused r => exact .inr ⟨fun _ => nofun, rfl⟩

end Sys2Proof.Machine
end

