-- ==== Sys2Proof/Tests/Slice0.lean ====
section
/-! SUPPORT. The model's own tests: decoding of words written out from the spec's encodings, the refusals of the
well-formedness check, at most two small steps an instruction with results from spec/95_test_vectors.md, and for every
statement with hypotheses a witness that meets them. -/

namespace Sys2Proof.Tests

open Sys2Proof Sys2Proof.Machine Sys2Proof.Safety

/-! ### Helpers -/

/-- One field of a next state. -/
def after {α : Type} (f : State → α) : Result → Option α
  | .next t => some (f t)
  | .fault _ => none
  | .refused _ => none

/-- Why there is no next state. -/
def stop : Result → Option Fault
  | .next _ => none
  | .fault r => some r
  | .refused _ => none

/-- No input. -/
def noInput : InputQueue := { given := [], endless := none }

/-- The engine at position `ip` of a text, with the given tape cells and pointer. -/
def engine (text : List Byte) (ip : Nat) (tape : List Byte) (cp : Nat) : State :=
  { State.launch text false none noInput with
    phase := .run, ip := ip, tape := Memory.load 0 tape, tlen := tape.length, cp := cp }

/-- The engine at a `,` with the given input. -/
def atInput (units : List InputUnit) (cell : Byte) : State :=
  { engine [0x2C] 0 [cell] 0 with inq := { given := units, endless := none } }

/-- The engine at a `,` with an infinite input. -/
def atInfinite : State := { engine [0x2C] 0 [0] 0 with inq := InputQueue.infinite }

/-- A loop `[]` in phase `RUN` with its table, at one of its brackets. -/
def loop (ip : Nat) (cell : Byte) : State :=
  { engine [0x5B, 0x5D] ip [cell] 0 with rs := 2, jt := [(0, 1), (1, 0)] }

/-! ### Decoding: words written out from spec/30_encoding.md R62 and the opcode table -/

theorem test_decode_inc : decode [0b00101011] = .ok (.inc, []) := by decide
theorem test_decode_in : decode [0b00101100] = .ok (.input, []) := by decide
theorem test_decode_dec : decode [0b00101101] = .ok (.dec, []) := by decide
theorem test_decode_out : decode [0b00101110] = .ok (.out, []) := by decide
theorem test_decode_left : decode [0b00111100] = .ok (.left, []) := by decide
theorem test_decode_right : decode [0b00111110] = .ok (.right, []) := by decide
theorem test_decode_loops : decode [0b01011011] = .ok (.loops, []) := by decide
theorem test_decode_loope : decode [0b01011101] = .ok (.loope, []) := by decide
/-- R64 and V56: values next to the codes, and the ends of the range, are inert. -/
theorem test_decode_inert :
    [0x00, 0x2A, 0x2F, 0x3B, 0x3D, 0x3F, 0x5A, 0x5C, 0x5E, 0x7F, 0xFF].map decodeCell =
      [0x00, 0x2A, 0x2F, 0x3B, 0x3D, 0x3F, 0x5A, 0x5C, 0x5E, 0x7F, 0xFF].map Instr.nop := by decide
/-- R60: one cell is taken and what follows is left. -/
theorem test_decode_leaves_rest : decode [0x2B, 0x2D] = .ok (.inc, [0x2D]) := by decide
theorem test_decode_no_cell : decode [] = .error .noCell := by decide
theorem test_decode_table_word : decodeTableWord 8 0x3E = some .right := by decide

/-! ### Well-formedness: a `nop` that holds one of the eight codes is refused -/

theorem test_nop_of_code_refused :
    [0x2B, 0x2C, 0x2D, 0x2E, 0x3C, 0x3E, 0x5B, 0x5D].map (fun c => (Instr.nop c).wellFormed) =
      List.replicate 8 false := by decide
theorem test_nop_of_space_wellFormed : (Instr.nop 0x20).wellFormed = true := by decide

/-! ### One step of each instruction (spec/95_test_vectors.md part 2) -/

/-- V21. -/
theorem test_inc_wraps : after (fun t => (t.cur, t.ip)) (exec .inc (engine [0x2B] 0 [255] 0)) = some (some 0, 1) := by
  decide
/-- V24. -/
theorem test_inc_has_no_sign : after State.cur (exec .inc (engine [0x2B] 0 [127] 0)) = some (some 128) := by decide
/-- V23. -/
theorem test_dec_wraps : after (fun t => (t.cur, t.ip)) (exec .dec (engine [0x2D] 0 [0] 0)) = some (some 255, 1) := by
  decide
/-- V24b. -/
theorem test_dec_has_no_sign : after State.cur (exec .dec (engine [0x2D] 0 [128] 0)) = some (some 127) := by decide
/-- V28. -/
theorem test_right_appends :
    after (fun t => (t.cp, t.tapeCells)) (exec .right (engine [0x3E] 0 [7, 9] 1)) = some (2, [7, 9, 0]) := by decide
/-- V32b. -/
theorem test_right_at_limit :
    after (fun t => (t.phase, t.ecause, t.echar, t.cp, t.tlen))
      (exec .right { engine [0x3E] 0 [0, 0] 1 with tapeMax := some 2 }) =
      some (.fault, .tapeLimit, 0x3E, 1, 2) := by decide
/-- V29. -/
theorem test_left_keeps_tape :
    after (fun t => (t.cp, t.tapeCells)) (exec .left (engine [0x3C] 0 [7, 9, 0] 2)) = some (1, [7, 9, 0]) := by decide
/-- V31. -/
theorem test_left_at_zero :
    after (fun t => (t.phase, t.ecause, t.echar, t.epos, t.ip))
      (exec .left (engine [0x3E, 0x3E, 0x3E, 0x3C, 0x3C, 0x3C, 0x3C] 6 [0, 0, 0, 0] 0)) =
      some (.fault, .negativeTapeIndex, 0x3C, 6, 6) := by decide
/-- V34. -/
theorem test_loops_skips : after State.ip (step (loop 0 0)) = some 2 := by decide
/-- V35, the same loop entered. -/
theorem test_loops_enters : after State.ip (step (loop 0 1)) = some 1 := by decide
/-- V36: the empty loop's `]` repeats itself. -/
theorem test_loope_repeats : after State.ip (step (loop 1 1)) = some 1 := by decide
/-- V37, the same loop left. -/
theorem test_loope_finishes : after State.ip (step (loop 1 0)) = some 2 := by decide
/-- V44. -/
theorem test_out_emits : after State.hist (exec .out (engine [0x2E] 0 [200] 0)) = some [.out 200] := by decide
/-- V43. -/
theorem test_out_keeps_cell : after State.cur (exec .out (engine [0x2E] 0 [0] 0)) = some (some 0) := by decide
/-- V49. -/
theorem test_in_stores :
    after (fun t => (t.cur, t.ip, t.inq.given)) (exec .input (atInput [[255], [7]] 9)) =
      some (some 255, 1, [[7]]) := by decide
/-- V46, V47, V48: an empty line, a line of two characters and a code point above 255 are rejected. -/
theorem test_in_rejects :
    [[], [97, 98], [256]].map (fun u => after (fun t => (t.cur, t.ip, t.inwait, t.hist)) (exec .input (atInput [u] 9))) =
      List.replicate 3 (some (some 9, 0, true, [.diag])) := by decide
/-- V51. -/
theorem test_in_waits : stop (step (atInput [] 0)) = some .inputWait := by decide
/-- V55. -/
theorem test_nop_advances :
    after (fun t => (t.ip, t.hist)) (step { engine [0x20] 0 [5] 0 with debug := true }) = some (1, []) := by decide

/-! ### The resolver, the halt, debug mode and reset -/

/-- V4: the bottom of the stack is reported. -/
theorem test_resolve_left_over : resolveText [0x5B, 0x5B, 0x5D] = .fail 0x5B 0 := by decide
/-- V5c: inert characters count as positions. -/
theorem test_resolve_unmatched_closer : resolveText [0x61, 0x5D, 0x62, 0x5B] = .fail 0x5D 1 := by decide
/-- V8. -/
theorem test_resolve_nested :
    resolveText [0x5B, 0x5B, 0x5D, 0x5B, 0x5D, 0x5D] = .ok [(0, 5), (1, 2), (2, 1), (3, 4), (4, 3), (5, 0)] := by decide
/-- R80's example: `[[]` at position 2. -/
theorem test_scan_closer :
    after (fun t => (t.rs, t.stk, t.jt))
      (step { State.launch [0x5B, 0x5B, 0x5D] false none noInput with rs := 2, stk := [0, 1] }) =
      some (3, [0], [(1, 2), (2, 1)]) := by decide
/-- V57. -/
theorem test_halt : after State.phase (step (engine [0x2B] 1 [1] 0)) = some .halt := by decide
/-- V60. -/
theorem test_trace_step_skip :
    after State.hist (step { loop 0 0 with debug := true }) = some [.traceStep [0] 0 0x5B .skip] := by decide
/-- R32: the tape after reset is the one-cell sequence `[0]`. -/
theorem test_reset_tape : State.reset.tapeCells = [0] := by decide
/-- The host's placing of a word: the very next step runs it. -/
theorem test_with_fetch_word : after State.cur (step (State.reset.withFetchWord 8 0x2D)) = some (some 255) := by decide

/-! ### States that meet the invariant -/

theorem tableSound_loop (ip : Nat) (cell : Byte) : TableSound (loop ip cell) 2 [] where
  domain p := by
    match p with
    | 0 => exact ⟨fun _ => ⟨by decide, .inl rfl, by decide⟩, fun _ => ⟨1, rfl⟩⟩
    | 1 => exact ⟨fun _ => ⟨by decide, .inr rfl, by decide⟩, fun _ => ⟨0, rfl⟩⟩
    | n + 2 => exact ⟨fun ⟨_, hq⟩ => by simp [loop, Assoc.get] at hq, fun ⟨hlt, _⟩ => by omega⟩
  pairing p q h := by
    match p with
    | 0 =>
      obtain rfl : 1 = q := by simpa [loop, Assoc.get] using h
      exact ⟨rfl, .inl ⟨rfl, rfl, by decide⟩⟩
    | 1 =>
      obtain rfl : 0 = q := by simpa [loop, Assoc.get] using h
      exact ⟨rfl, .inr ⟨rfl, rfl, by decide⟩⟩
    | n + 2 => simp [loop, Assoc.get] at h
  nesting i j i' j' h _ h' _ hlt := by
    match i, i' with
    | 0, 1 =>
      obtain rfl : 0 = j' := by simpa [loop, Assoc.get] using h'
      omega
    | 0, n + 2 => simp [loop, Assoc.get] at h'
    | 1, n + 2 => simp [loop, Assoc.get] at h'
    | n + 2, _ => simp [loop, Assoc.get] at h
  openOutside p hp := by simp at hp

/-- The engine at either bracket of `[]`. -/
theorem witness_inv_loop (ip : Nat) (cell : Byte) (h : ip ≤ 2) : Inv (loop ip cell) where
  progCanonical := ⟨Memory.wf_load 0 [0x5B, 0x5D], fun _ he => (Memory.mem_load (text := [0x5B, 0x5D]) he).2⟩
  tapeCanonical := ⟨Memory.wf_load 0 [cell], fun _ he => (Memory.mem_load (text := [cell]) he).2⟩
  tableCanonical := by show Assoc.Rising [(0, 1), (1, 0)]; decide
  pointerInTape := Nat.zero_lt_one
  tapeWithinCapacity _ hm := by cases hm
  resolving hp := by cases hp
  tableComplete _ := tableSound_loop ip cell
  ipInRange _ := h
  ipAtEnd hp := by cases hp
  causeIffFault := ⟨fun hc => absurd rfl hc, fun hp => by cases hp⟩
  recordClear _ := ⟨rfl, rfl⟩
  waitingAtInput hw := by cases hw

/-- A text without brackets needs no table. -/
theorem tableSound_input (units : List InputUnit) (cell : Byte) : TableSound (atInput units cell) 1 [] where
  domain p := by
    match p with
    | 0 =>
      refine ⟨fun ⟨_, hq⟩ => (by cases hq), fun ⟨_, hb, _⟩ => ?_⟩
      have hc : (atInput units cell).readProg 0 = some 0x2C := rfl
      rcases hb with hb | hb <;> exact absurd (hc.symm.trans hb) (by decide)
    | n + 1 => exact ⟨fun ⟨_, hq⟩ => (by cases hq), fun ⟨hlt, _⟩ => (by omega)⟩
  pairing _ _ h := by cases h
  nesting _ _ _ _ h := by cases h
  openOutside _ hp := by simp at hp

/-- The engine at a `,`. -/
theorem witness_inv_input (units : List InputUnit) (cell : Byte) : Inv (atInput units cell) where
  progCanonical := ⟨Memory.wf_load 0 [0x2C], fun _ he => (Memory.mem_load (text := [0x2C]) he).2⟩
  tapeCanonical := ⟨Memory.wf_load 0 [cell], fun _ he => (Memory.mem_load (text := [cell]) he).2⟩
  tableCanonical := List.Pairwise.nil
  pointerInTape := Nat.zero_lt_one
  tapeWithinCapacity _ hm := by cases hm
  resolving hp := by cases hp
  tableComplete _ := tableSound_input units cell
  ipInRange _ := Nat.zero_le _
  ipAtEnd hp := by cases hp
  causeIffFault := ⟨fun hc => absurd rfl hc, fun hp => by cases hp⟩
  recordClear _ := ⟨rfl, rfl⟩
  waitingAtInput hw := by cases hw

/-- The program `]`, about to be scanned. -/
theorem witness_inv_resolving : Inv (State.launch [0x5D] false none noInput) where
  progCanonical := by decide
  tapeCanonical := by decide
  tableCanonical := by decide
  pointerInTape := by decide
  tapeWithinCapacity _ hm := by cases hm
  resolving _ :=
    { scanInRange := by decide
      stackRising := by decide
      stackOpeners := fun _ hp => by cases hp
      table :=
        { domain := fun _ => ⟨fun ⟨_, hq⟩ => (by cases hq), fun ⟨hlt, _⟩ => (by cases hlt)⟩
          pairing := fun _ _ h => by cases h
          nesting := fun _ _ _ _ h => by cases h
          openOutside := fun _ hp => by cases hp }
      engineFresh := ⟨rfl, rfl, rfl, rfl, rfl⟩ }
  tableComplete hp := by rcases hp with hp | hp <;> cases hp
  ipInRange hp := by cases hp
  ipAtEnd hp := by cases hp
  causeIffFault := ⟨fun hc => absurd rfl hc, fun hp => by cases hp⟩
  recordClear _ := ⟨rfl, rfl⟩
  waitingAtInput hw := by cases hw

/-! ### Witnesses: the hypotheses of each statement are met -/

/-- `DecodeOfEncodeIsInstruction`, `TextAndInstructionsAgree`: a list with an inert cell of each end of the range. -/
theorem witness_wellFormed : ∀ i ∈ [Instr.inc, .nop 0, .nop 0x5C, .nop 0xFF], i.wellFormed = true := by decide

/-- `StepRunsDecodedInstruction`, the traced clause. -/
theorem witness_step_traced :
    let s := { loop 0 0 with debug := true }
    s.phase = .run ∧ s.fetch = some 0x5B ∧ decodeCell 0x5B = .loops ∧ Instr.loops.recognised = true ∧
      s.debug = true ∧ s.inwait = false := by decide

/-- `StepRunsDecodedInstruction`, the untraced clause: a `,` that has already waited, in debug mode. -/
theorem witness_step_untraced :
    let s := { atInput [[65]] 0 with debug := true, inwait := true }
    s.phase = .run ∧ s.fetch = some 0x2C ∧ decodeCell 0x2C = .input ∧
      ¬ (Instr.input.recognised = true ∧ s.debug = true ∧ s.inwait = false) := by decide

/-- `HaltOnlyAtEndOfProgram`, at the end of a text and of the empty text; for its second part see `witness_trace_none`. -/
theorem witness_halt : (loop 2 0).phase = .run ∧ (loop 2 0).ip = (loop 2 0).plen ∧
    (engine [] 0 [0] 0).ip = (engine [] 0 [0] 0).plen := by decide

/-- `NoStepAfterTheEnd`, both clauses. -/
theorem witness_ended : ({ loop 2 0 with phase := .halt } : State).phase = .halt ∧
    ({ loop 2 0 with phase := .fault } : State).phase = .fault := by decide

/-- `NopOnlyAdvances`. -/
theorem witness_nop :
    (engine [0xFF] 0 [0] 0).phase = .run ∧ (engine [0xFF] 0 [0] 0).fetch = some 0xFF ∧ isInert 0xFF = true := by decide

/-- `IncAddsOneModulo256`, `DecSubtractsOneModulo256`, `RepeatedArithmeticIsModular`, `OutEmitsCurrentCell`: the two ends
of the cell's range. -/
theorem witness_cur : (engine [0x2B] 0 [255] 0).cur = some 255 ∧ (engine [0x2D] 0 [0] 0).cur = some 0 := by decide

/-- `RightMovesAndExtends`: on the last cell of an unbounded tape; on an earlier cell of a full one. -/
theorem witness_right :
    (let s := engine [0x3E] 0 [7, 9] 1
     ¬ (s.cp + 1 = s.tlen ∧ s.tapeMax = some s.tlen) ∧ s.cp + 1 = s.tlen ∧ s.cp < s.tlen) ∧
    (let s := { engine [0x3E] 0 [0, 0] 0 with tapeMax := some 2 }
     ¬ (s.cp + 1 = s.tlen ∧ s.tapeMax = some s.tlen) ∧ s.cp + 1 ≠ s.tlen) := by decide

/-- `RightAtLimitTakesTapeLimit`, first clause, and the limit clause of `RightMovesAndExtends`: a tape of one cell and `TAPE_MAX = 1`. -/
theorem witness_right_limit :
    let s := { engine [0x3E] 0 [0] 0 with tapeMax := some 1 }
    s.cp + 1 = s.tlen ∧ s.tapeMax = some s.tlen := by decide

/-- `RightAtLimitTakesTapeLimit`, second clause. -/
theorem witness_right_unbounded :
    ∃ t, (engine [0x3E] 0 [0] 0).tapeMax = none ∧ exec .right (engine [0x3E] 0 [0] 0) = .next t := ⟨_, rfl, rfl⟩

/-- `LeftMovesPointer`, both clauses; `LeftAtZeroAlwaysFails`. -/
theorem witness_left : (engine [0x3C] 0 [0, 0] 1).cp ≠ 0 ∧ (engine [0x3C] 0 [0, 0] 0).cp = 0 ∧
    (engine [0x3C] 0 [0, 0] 0).phase = .run ∧ (engine [0x3C] 0 [0, 0] 0).fetch = some codeLeft := by decide

/-- `LoopStartJumpsOnZero`, both clauses. -/
theorem witness_loops : (loop 0 1).cur = some 1 ∧ (loop 0 0).cur = some 0 ∧
    Assoc.get (loop 0 0).jt (loop 0 0).ip = some 1 := by decide

/-- `LoopEndJumpsOnNonZero`, both clauses. -/
theorem witness_loope : (loop 1 0).cur = some 0 ∧ (loop 1 255).cur = some 255 ∧
    Assoc.get (loop 1 255).jt (loop 1 255).ip = some 0 := by decide

/-- `InputTakesOneUnit`, first clause: the two ends of the valid range. -/
theorem witness_input_valid :
    (atInput [[0]] 9).cp < (atInput [[0]] 9).tlen ∧ unitAt (atInput [[0]] 9).inq 0 = some [0] ∧ (0 : Nat) ≤ 255 ∧
      unitAt (atInput [[255]] 9).inq 0 = some [255] ∧ (255 : Nat) ≤ 255 := by decide

/-- `InputTakesOneUnit`, second clause: an empty line, two characters, and the first code point above the range. -/
theorem witness_input_invalid :
    (unitAt (atInput [[]] 9).inq 0 = some [] ∧ ([] : InputUnit).length ≠ 1) ∧
    (unitAt (atInput [[97, 98]] 9).inq 0 = some [97, 98] ∧ ([97, 98] : InputUnit).length ≠ 1) ∧
    (unitAt (atInput [[256]] 9).inq 0 = some [256] ∧ ∃ c, ([256] : InputUnit) = [c] ∧ 255 < c) :=
  ⟨by decide, by decide, rfl, 256, rfl, by decide⟩

/-- `InputWaitsForUnit`, all clauses. -/
theorem witness_input_wait :
    unitAt (atInput [] 0).inq 0 = none ∧ (atInput [] 0).phase = .run ∧ (atInput [] 0).fetch = some codeIn ∧
      (atInput [] 0).cp < (atInput [] 0).tlen := by decide

/-- `InputRetriesWithoutBound` for `n + 1 = 2`. -/
theorem witness_input_retry :
    (atInput [[], [256]] 0).phase = .run ∧ (atInput [[], [256]] 0).fetch = some codeIn ∧
      ∀ k, k < 1 + 1 → ∃ u, unitAt (atInput [[], [256]] 0).inq k = some u ∧ ¬ ValidUnit u := by
  refine ⟨by decide, by decide, fun k hk => ?_⟩
  match k with
  | 0 => exact ⟨[], rfl, by simp [ValidUnit]⟩
  | 1 => exact ⟨[256], rfl, by simp [ValidUnit]⟩
  | n + 2 => omega

/-- `AbsentCellStops`, both clauses, at the first index that does not exist. -/
theorem witness_absent_cell :
    let s := { atInput [[65]] 0 with cp := 1 }
    s.tlen ≤ s.cp ∧ unitAt s.inq 0 = some [65] ∧ ValidUnit [65] := ⟨by decide, by decide, 65, rfl, by decide⟩

/-- `JumpLandsPastPartner`, both clauses. -/
theorem witness_jump :
    (Inv (loop 0 0) ∧ (loop 0 0).phase = .run ∧ (loop 0 0).cur = some 0 ∧ IsOpener (loop 0 0) (loop 0 0).ip) ∧
    (Inv (loop 1 1) ∧ (loop 1 1).phase = .run ∧ (loop 1 1).cur = some 1 ∧ IsCloser (loop 1 1) (loop 1 1).ip) :=
  ⟨⟨witness_inv_loop 0 0 (by decide), rfl, by decide, rfl⟩, witness_inv_loop 1 1 (by decide), rfl, by decide, rfl⟩

/-- `EmptyLoopRunsForEver`. -/
theorem witness_empty_loop :
    (loop 1 1).phase = .run ∧ (loop 1 1).debug = false ∧ (loop 1 1).fetch = some codeLoope ∧
      (loop 1 1).cur = some 1 ∧ (1 : Byte) ≠ 0 ∧ ∃ q, Assoc.get (loop 1 1).jt (loop 1 1).ip = some q ∧
        q + 1 = (loop 1 1).ip :=
  ⟨rfl, rfl, rfl, by decide, by decide, 0, rfl, rfl⟩

/-- `PhaseTransitions`, `ProgramAndTableAreImmutable`, `TapeGrowsOnlyByRight`, `PointersMoveOnlyByTheirInstructions`,
`OnlyInputConsumesUnits`, `FaultTableIsComplete`, `ErrorRecordWrittenOnlyByFault`, `InwaitWrittenOnlyByInput` and the
last clause of `HistoryIsAppendOnly`: a step of the engine that is neither an `IN` nor an `OUT`. -/
theorem witness_run_step :
    ∃ t, step (engine [0x3E] 0 [0] 0) = .next t ∧ t.phase ≠ .fault ∧ (engine [0x3E] 0 [0] 0).phase = .run ∧
      (engine [0x3E] 0 [0] 0).fetch ≠ some codeIn ∧ (engine [0x3E] 0 [0] 0).fetch ≠ some codeOut :=
  ⟨_, rfl, by decide, rfl, by decide, by decide⟩

/-- `TapeGrowsOnlyByRight`, the resolver's clause. -/
theorem witness_resolve_step :
    ∃ t, step (State.launch [0x5B] false none noInput) = .next t ∧
      (State.launch [0x5B] false none noInput).phase = .resolve := ⟨_, rfl, rfl⟩

/-- `HistoryIsAppendOnly`, the clause of `.`. -/
theorem witness_out_step :
    ∃ t, step (engine [0x2E] 0 [200] 0) = .next t ∧ (engine [0x2E] 0 [200] 0).phase = .run ∧
      (engine [0x2E] 0 [200] 0).fetch = some codeOut := ⟨_, rfl, rfl, by decide⟩

/-- `FaultEntryIsPrecise`, `FaultTableIsComplete`: a `<` at index 0. -/
theorem witness_fault_step : ∃ t, step (engine [0x3C] 0 [0] 0) = .next t ∧ t.phase = .fault := ⟨_, rfl, by decide⟩

/-- `UnmatchedBracketPrecedesExecution`: the program `]`. -/
theorem witness_unmatched :
    ∃ t, Inv (State.launch [0x5D] false none noInput) ∧ step (State.launch [0x5D] false none noInput) = .next t ∧
      t.ecause = .unmatchedBracket := ⟨_, witness_inv_resolving, rfl, by decide⟩

/-- `TraceEventsCarryTheReport`, first part, with the flag on and off: the empty program. -/
theorem witness_trace_program :
    (let s := State.launch [] true none noInput
     s.phase = .resolve ∧ s.plen ≤ s.rs ∧ s.stk = [] ∧ s.debug = true) ∧
    (State.launch [] false none noInput).debug = false := by decide

/-- `TraceEventsCarryTheReport`, second part: a resolver step before the end of the text, and the halt. -/
theorem witness_trace_none :
    (∃ t, step (State.launch [0x5B] true none noInput) = .next t) ∧
    ¬ ((State.launch [0x5B] true none noInput).plen ≤ (State.launch [0x5B] true none noInput).rs ∧
      (State.launch [0x5B] true none noInput).stk = []) ∧
    (∃ t, step (loop 2 0) = .next t ∧ t.phase = .halt) ∧ (loop 2 0).ip = (loop 2 0).plen :=
  ⟨⟨_, rfl⟩, by decide, ⟨_, rfl, rfl⟩, rfl⟩

/-- `PlacedWordRunsNext`. -/
theorem witness_placed_word : State.reset.debug = false ∧ decodeTableWord 8 0 = some (.nop 0) := by decide

/-- `TraceEventsCarryTheReport`, third part: each bracket, another instruction, and an inert cell. -/
theorem witness_trace_step :
    (∃ t, step { loop 0 0 with debug := true } = .next t) ∧ (∃ t, step { loop 1 1 with debug := true } = .next t) ∧
    (∃ t, step { engine [0x2E] 0 [1] 0 with debug := true } = .next t) ∧
    (∃ t, step { engine [0x20] 0 [1] 0 with debug := true } = .next t) ∧
    isInert 0x5B = false ∧ isInert 0x5D = false ∧ isInert 0x2E = false ∧ isInert 0x20 = true :=
  ⟨⟨_, rfl⟩, ⟨_, rfl⟩, ⟨_, rfl⟩, ⟨_, rfl⟩, by decide⟩

/-- `DebugModeIsPureObserver`: two different states that debug mode alone sets apart. -/
theorem witness_debug :
    let s := loop 0 0
    let s' := { loop 0 0 with debug := true, hist := [.traceProgram [0x5B, 0x5D]] }
    withoutTrace s = withoutTrace s' ∧ s ≠ s' := by decide

/-- A chosen infinite input, the line `A` for ever: its first unit is taken and its second comes next (R6, R117). -/
theorem test_in_takes_chosen_infinite :
    after (fun t => (t.cur, unitFrom (fun _ => [65]) t.inq 0)) (stepFrom (fun _ => [65]) atInfinite) =
      some (some 65, some [65]) := by decide

/-- `StepTakesOnlyTheNextUnit`: the step of a `,` on a chosen infinite input, and a step that is none. -/
theorem witness_step_in_environment :
    (∃ t, stepFrom (fun _ => [65]) atInfinite = .next t ∧ atInfinite.phase = .run ∧ atInfinite.fetch = some codeIn) ∧
    (∃ t, stepFrom (fun _ => [65]) (loop 0 0) = .next t ∧ ¬ ((loop 0 0).phase = .run ∧ (loop 0 0).fetch = some codeIn)) :=
  ⟨⟨_, rfl, rfl, rfl⟩, _, rfl, by decide⟩

/-- `InfiniteInputRunsAsItsPrefixes`: two steps of the program `,` on the lines `A`, `B`, ... and on the first three. -/
theorem witness_prefix :
    let env : Environment := fun k => [65 + k]
    2 ≤ 3 ∧ 0 + 2 < 3 ∧
      (∃ s, Host.Core.run (coreFrom env) 2 (State.launch [0x2C] false none InputQueue.infinite) = .next s) ∧
      ∃ t, Host.Core.run core 2 (State.launch [0x2C] false none (firstUnits env 3)) = .next t :=
  ⟨by decide, by decide, ⟨_, rfl⟩, _, rfl⟩

/-- `InvalidInputForEverNeverHalts`: empty lines for ever. -/
theorem witness_invalid_for_ever :
    atInfinite.phase = .run ∧ atInfinite.fetch = some codeIn ∧
      ∀ k, ∃ u, unitFrom (fun _ => []) atInfinite.inq k = some u ∧ ¬ ValidUnit u :=
  ⟨rfl, rfl, fun _ => ⟨[], rfl, by simp [ValidUnit]⟩⟩

/-- `LaunchPremisesHold`: a run of one step. -/
theorem witness_launch_run :
    ∃ t, Host.Core.run (coreFrom fun _ => [65]) 1 (State.launch [0x2C] true none InputQueue.infinite) = .next t :=
  ⟨_, rfl⟩

/-- Two streams, the trace one received first. -/
def traceFirst : Delivery := fun x => tracesOf x.delivered ++ x.delivered.filter Event.untraced

theorem outputOf_tracesOf (es : List Event) : outputOf (tracesOf es) = [] := by
  induction es with
  | nil => rfl
  | cons e es ih => cases e <;> simpa using ih

theorem traceFirst_delivers : Delivers traceFirst where
  output x := by
    simp only [traceFirst, outputOf_append, outputOf_tracesOf, List.nil_append]
    induction x.delivered with
    | nil => rfl
    | cons e es ih => cases e <;> simpa [List.filter_cons, Event.untraced] using ih
  traces x := by
    simp only [traceFirst, tracesOf_append]
    induction x.delivered with
    | nil => rfl
    | cons e es ih => cases e <;> simpa [List.filter_cons, Event.untraced] using ih
  diagnostics x := by
    simp only [traceFirst, List.count_append]
    induction x.delivered with
    | nil => rfl
    | cons e es ih => cases e <;> simp [List.filter_cons, Event.untraced] <;> omega

/-- `DeliveryKeepsOrderWithinKinds`, `EventsAreNeverWithdrawn`: a single stream; two streams that are not one; and a `.` in debug mode. -/
theorem witness_delivery :
    SingleStream Session.delivered ∧ (Delivers traceFirst ∧ ¬ SingleStream traceFirst) ∧
    (let s := { engine [0x2E] 0 [1] 0 with debug := true }
     s.phase = .run ∧ s.fetch = some codeOut ∧ s.debug = true ∧ s.inwait = false ∧ ∃ t, step s = .next t) := by
  refine ⟨fun _ => rfl, ⟨traceFirst_delivers, fun h => ?_⟩, rfl, by decide, rfl, rfl, _, rfl⟩
  have := h { earlier := [.out 1, .traceProgram []], machine := State.reset }
  exact absurd this (by decide)

/-- A kill after a `.` keeps the value that was delivered and empties `HIST` (R155). -/
theorem test_kill_keeps_output :
    let x := Session.acts (fun _ => []) { earlier := [], machine := engine [0x2E] 0 [200] 0 } [.step, .kill noInput]
    x.delivered = [.out 200] ∧ x.machine.hist = [] ∧ x.machine.phase = .resolve := by decide

/-- `ScanOpenerPushesPosition`, both clauses; `ScanCloserPairsInnermost`. -/
theorem witness_scan :
    ((State.launch [0x5B] false none noInput).phase = .resolve ∧
      (State.launch [0x5B] false none noInput).readProg 0 = some codeLoops) ∧
    ((State.launch [0x2B] false none noInput).readProg 0 = some 0x2B ∧ (0x2B : Byte) ≠ codeLoops ∧
      (0x2B : Byte) ≠ codeLoope) ∧
    (let s := { State.launch [0x5B, 0x5D] false none noInput with rs := 1, stk := [0] }
     s.phase = .resolve ∧ s.readProg s.rs = some codeLoope ∧ s.stk = [] ++ [0] ∧ 0 ≠ s.rs) := by decide

/-- `ScanFailsOnUnmatchedBracket`, both clauses. -/
theorem witness_scan_fails :
    (let s := State.launch [0x5D] false none noInput
     s.phase = .resolve ∧ s.readProg s.rs = some codeLoope ∧ s.stk = []) ∧
    (let s := { State.launch [0x5B] false none noInput with rs := 1, stk := [0] }
     s.phase = .resolve ∧ s.plen ≤ s.rs ∧ s.stk = 0 :: []) := by decide

/-- `ResolveReportsFirstUnmatched`, both outcomes; `ResolvedTableIsInvolution`; both cases of
`ResolverComputesResolve`. -/
theorem witness_resolve :
    resolveText [0x5B, 0x5D, 0x5D] = .fail 0x5D 2 ∧ resolveText [0x5B, 0x5D, 0x5B] = .fail 0x5B 2 ∧
      resolveText [0x5B, 0x5D] = .ok [(0, 1), (1, 0)] := by decide

/-- `ResetSetsEveryElement`, second part: two states of one program at different points of its run. -/
theorem witness_reset : KeepsProgram (loop 0 0) (loop 1 7) := ⟨rfl, rfl, rfl, rfl⟩

/-- `LaunchMeetsInvariant`, `InvariantAtEveryStepBoundary`: the least finite capacity, and a run of two steps. -/
theorem witness_launch :
    (∀ m, (some 1 : Option Nat) = some m → 1 ≤ m) ∧
      ∃ s, Host.Core.run core 2 (State.launch [0x3E] false (some 1) noInput) = .next s :=
  ⟨fun m h => by cases h; exact Nat.le_refl 1, _, rfl⟩

/-- `StepKeepsInvariant`: a step from a state that meets the invariant, in each of the two phases. -/
theorem witness_invariant_step :
    (∃ t, Inv (loop 1 1) ∧ step (loop 1 1) = .next t) ∧
    (∃ t, Inv (State.launch [0x5D] false none noInput) ∧ step (State.launch [0x5D] false none noInput) = .next t) :=
  ⟨⟨_, witness_inv_loop 1 1 (by decide), rfl⟩, _, witness_inv_resolving, rfl⟩

/-- `ProgressUnlessInputWait`: a state with a next state and a state that waits. -/
theorem witness_progress :
    (Inv (loop 1 1) ∧ ¬ RunEnded (loop 1 1)) ∧ (Inv (atInput [] 0) ∧ ¬ RunEnded (atInput [] 0)) :=
  ⟨⟨witness_inv_loop 1 1 (by decide), by simp [RunEnded, loop, engine]⟩, witness_inv_input [] 0,
    by simp [RunEnded, atInput, engine]⟩

end Sys2Proof.Tests
end

section
/-! PROOFS. What a step, a resolver step and an `IN` answer, case by case: the forward equations beside the inversion
lemmas of Laws/. -/

namespace Sys2Proof.Machine

open Sys2Proof.Safety

/-! ### Where there is no step -/

theorem stepBy_of_halt (meaning : Instr → State → Result) {s : State} (h : s.phase = .halt) :
    stepBy meaning s = .fault .runHalted := by
  simp [stepBy, h]

theorem stepBy_of_fault (meaning : Instr → State → Result) {s : State} (h : s.phase = .fault) :
    stepBy meaning s = .fault .runFaulted := by
  simp [stepBy, h]

/-- A fetch beyond the text stops by name (log 7). -/
theorem stepBy_of_no_cell (meaning : Instr → State → Result) {s : State} (h : s.phase = .run) (hi : s.ip ≠ s.plen)
    (hc : s.fetch = none) : stepBy meaning s = .fault .noSuchProgramCell := by
  simp [stepBy, h, runStep, hi, hc]

/-! ### The resolver step, rule by rule -/

/-- R79. -/
theorem State.scan_of_opener {s : State} (h : s.readProg s.rs = some codeLoops) : s.scan = s.scanOpener := by
  simp [State.scan, h]

/-- R80. -/
theorem State.scan_of_closer {s : State} {i : Nat} (h : s.readProg s.rs = some codeLoope)
    (ht : s.stk.getLast? = some i) : s.scan = s.scanCloser i := by
  simp [State.scan, h, State.top, ht, show codeLoope ≠ codeLoops by decide]

/-- R81. -/
theorem State.scan_of_unmatched_closer {s : State} (h : s.readProg s.rs = some codeLoope) (ht : s.stk = []) :
    s.scan = s.scanUnmatchedCloser := by
  simp [State.scan, h, State.top, ht, show codeLoope ≠ codeLoops by decide]

/-- R82. -/
theorem State.scan_of_other {s : State} {c : Byte} (h : s.readProg s.rs = some c) (h1 : c ≠ codeLoops)
    (h2 : c ≠ codeLoope) : s.scan = s.scanOther := by
  simp [State.scan, h, h1, h2]

/-- R83. -/
theorem State.scan_of_end {s : State} (h : s.readProg s.rs = none) (hb : s.stk = []) : s.scan = s.scanSuccess := by
  simp [State.scan, h, State.bottom, hb]

/-- R84. -/
theorem State.scan_of_left_over {s : State} {b : Nat} (h : s.readProg s.rs = none) (hb : s.stk.head? = some b) :
    s.scan = s.scanLeftOver b := by
  simp [State.scan, h, State.bottom, hb]

/-! ### What `IN` answers, by the next unit -/

/-- R122: without a unit `IN` waits. -/
theorem execInFrom_of_no_unit {env : Environment} {s : State} (h : unitFrom env s.inq 0 = none) :
    execInFrom env s = .fault .inputWait := by
  simp [execInFrom, State.inTakeFrom_eq_none.2 h]

/-- R117, R118: a valid unit is taken and, where the current cell exists, stored in it. -/
theorem execInFrom_of_valid {env : Environment} {s : State} {u : InputUnit} {v : Byte}
    (hu : unitFrom env s.inq 0 = some u) (hv : validValue u = some v) :
    ∃ q, (∀ n, unitFrom env q n = unitFrom env s.inq (n + 1)) ∧
      execInFrom env s = s.withCur fun _ => .next ((s.setInq q).acceptInput v) := by
  obtain ⟨q, hq, hn⟩ := State.inTakeFrom_of_unit hu
  exact ⟨q, hn, by simp only [execInFrom, hq, hv]; rfl⟩

/-- R117, R120: an invalid unit is taken and rejected. -/
theorem execInFrom_of_invalid {env : Environment} {s : State} {u : InputUnit}
    (hu : unitFrom env s.inq 0 = some u) (hv : validValue u = none) :
    ∃ q, (∀ n, unitFrom env q n = unitFrom env s.inq (n + 1)) ∧
      execInFrom env s = .next (s.setInq q).rejectInput := by
  obtain ⟨q, hq, hn⟩ := State.inTakeFrom_of_unit hu
  exact ⟨q, hn, by simp only [execInFrom, hq, hv]⟩

end Sys2Proof.Machine
end

section
/-! PROOFS. What a step takes from outside the state (spec/00_scope.md R9, spec/10_state.md R25): a step does not see
the input beyond the next unit, and runs on the same units go through the same states. -/

namespace Sys2Proof.Machine

open Sys2Proof.Safety

/-! ### Answers that agree but for the input still to come -/

/-- Two answers that agree but for the input are both a next state, or both the same stop. -/
theorem sameButInput_cases {r r' : Result} (h : sameButInput r r') :
    (∃ s s', r = .next s ∧ r' = .next s' ∧ withoutInput s = withoutInput s') ∨
    (∃ f, r = .fault f ∧ r' = .fault f) ∨ (∃ x, r = .refused x ∧ r' = .refused x) := by
  cases r with
  | next s =>
    cases r' with
    | next s' => exact .inl ⟨s, s', rfl, rfl, h⟩
    | fault _ | refused _ => exact h.elim
  | fault f =>
    cases r' with
    | fault f' => exact .inr (.inl ⟨f, rfl, congrArg _ (Eq.symm h)⟩)
    | next _ | refused _ => exact h.elim
  | refused x =>
    cases r' with
    | refused x' => exact .inr (.inr ⟨x, rfl, congrArg _ (Eq.symm h)⟩)
    | next _ | fault _ => exact h.elim

/-- A state that agrees with `s` but for the input is `s` with another input. -/
theorem eq_setInq_of_withoutInput {s s' : State} (h : withoutInput s = withoutInput s') : s' = s.setInq s'.inq := by
  change (withoutInput s').setInq s'.inq = (withoutInput s).setInq s'.inq
  rw [h]

/-- An operation on the current cell does not see the input when what it goes on with does not. -/
theorem sameButInput_withCur {s : State} {q : InputQueue} {k k' : Byte → Result}
    (h : ∀ v, sameButInput (k v) (k' v)) : sameButInput (s.withCur k) ((s.setInq q).withCur k') := by
  cases hs : s.cur with
  | some v => simpa only [State.withCur_of_cur k hs, State.withCur_of_cur (s := s.setInq q) k' hs] using h v
  | none =>
    have ha : s.tlen ≤ s.cp := State.readTape_eq_none.1 hs
    rw [State.withCur_of_absent k ha, State.withCur_of_absent (s := s.setInq q) k' ha]
    rfl

/-! ### Operations that do not see the input: they commute with `INQ <- q` -/

theorem State.traceStep_setInq (s : State) (q : InputQueue) (c : Byte) :
    (s.setInq q).traceStep c = (s.traceStep c).setInq q := by
  rw [State.traceStep, State.traceStep, apply_ite (State.setInq · q)]
  rfl

theorem State.traceProgram_setInq (s : State) (q : InputQueue) :
    (s.setInq q).traceProgram = s.traceProgram.setInq q := by
  rw [State.traceProgram, State.traceProgram, apply_ite (State.setInq · q)]
  rfl

theorem State.extendTape_setInq (s : State) (q : InputQueue) : (s.setInq q).extendTape = s.extendTape.setInq q := by
  rw [State.extendTape, State.extendTape, apply_ite (State.setInq · q)]
  rfl

theorem State.jumpIf_setInq (s : State) (q : InputQueue) (b : Bool) :
    (s.setInq q).jumpIf b = (s.jumpIf b).setInq q := by
  cases b <;> rfl

/-- No resolver step sees the input: the same rule of R79 to R84 applies whatever it is (R78). -/
theorem State.scan_setInq (s : State) (q : InputQueue) : (s.setInq q).scan = s.scan.setInq q := by
  rcases s.scan_cases with ⟨hc, hs⟩ | ⟨i, hc, ht, hs⟩ | ⟨hc, ht, hs⟩ | ⟨c, hc, h1, h2, hs⟩ | ⟨hc, hb, hs⟩ |
    ⟨b, hc, hb, hs⟩ <;> rw [hs]
  · exact State.scan_of_opener (s := s.setInq q) hc
  · exact State.scan_of_closer (s := s.setInq q) hc ht
  · exact State.scan_of_unmatched_closer (s := s.setInq q) hc ht
  · exact State.scan_of_other (s := s.setInq q) hc h1 h2
  · rw [State.scan_of_end (s := s.setInq q) hc hb, State.scanSuccess, State.traceProgram_setInq]
    rfl
  · exact State.scan_of_left_over (s := s.setInq q) hc hb

/-- A resolver step leaves `INQ` as it is. -/
theorem State.scan_inq (s : State) : s.scan.inq = s.inq := by
  have h : s.scan = s.scan.setInq s.inq := s.scan_setInq s.inq
  rw [h, State.setInq_inq]

/-! ### What a step takes from outside the state -/

/-- Every instruction but `IN` answers the same, but for the input, whatever the input and the environment. -/
theorem execFrom_setInq {env env' : Environment} {i : Instr} (hi : i ≠ .input) (s : State) (q : InputQueue) :
    sameButInput (execFrom env i s) (execFrom env' i (s.setInq q)) := by
  cases i with
  | input => exact absurd rfl hi
  | inc | dec | out => exact sameButInput_withCur fun v => rfl
  | loops | loope => exact sameButInput_withCur fun v => by rw [State.jumpIf_setInq]; rfl
  | nop => rfl
  | left =>
    change sameButInput (execLeft s) (if s.cp = 0 then _ else _)
    unfold execLeft
    split <;> rfl
  | right =>
    change sameButInput (execRight s) (if s.atTapeLimit then _ else _)
    unfold execRight
    split
    · rfl
    · change withoutInput _ = withoutInput (State.extendTape ((s.setCp (s.cp + 1)).setInq q)).advance
      rw [State.extendTape_setInq]
      rfl

/-- `IN` answers the same, but for the input still to come, wherever the next unit is the same. -/
theorem execInFrom_setInq {env env' : Environment} {s : State} {q : InputQueue}
    (h : unitFrom env s.inq 0 = unitFrom env' q 0) :
    sameButInput (execInFrom env s) (execInFrom env' (s.setInq q)) := by
  cases hu : unitFrom env s.inq 0 with
  | none =>
    rw [execInFrom_of_no_unit hu, execInFrom_of_no_unit (s := s.setInq q) (h.symm.trans hu)]
    rfl
  | some u =>
    have hu' : unitFrom env' (s.setInq q).inq 0 = some u := h.symm.trans hu
    cases hv : validValue u with
    | none =>
      obtain ⟨q₁, -, h₁⟩ := execInFrom_of_invalid hu hv
      obtain ⟨q₂, -, h₂⟩ := execInFrom_of_invalid hu' hv
      rw [h₁, h₂]
      rfl
    | some v =>
      obtain ⟨q₁, -, h₁⟩ := execInFrom_of_valid hu hv
      obtain ⟨q₂, -, h₂⟩ := execInFrom_of_valid hu' hv
      rw [h₁, h₂]
      exact sameButInput_withCur fun _ => rfl

/-- The meaning of any instruction depends on what is outside the state through the next unit only. -/
theorem execFrom_setInq_of_next_unit {env env' : Environment} (i : Instr) {s : State} {q : InputQueue}
    (h : unitFrom env s.inq 0 = unitFrom env' q 0) :
    sameButInput (execFrom env i s) (execFrom env' i (s.setInq q)) := by
  by_cases hi : i = .input
  · subst hi
    exact execInFrom_setInq h
  · exact execFrom_setInq hi s q

/-- R9, R25: a step depends on what is outside the state through the next unit only. -/
theorem stepFrom_setInq {env env' : Environment} {s : State} {q : InputQueue}
    (h : unitFrom env s.inq 0 = unitFrom env' q 0) :
    sameButInput (stepFrom env s) (stepFrom env' (s.setInq q)) := by
  unfold stepFrom
  cases hp : s.phase with
  | resolve =>
    rw [stepBy_of_resolve _ hp, stepBy_of_resolve (s := s.setInq q) _ hp, State.scan_setInq]
    rfl
  | halt =>
    rw [stepBy_of_halt _ hp, stepBy_of_halt (s := s.setInq q) _ hp]
    rfl
  | fault =>
    rw [stepBy_of_fault _ hp, stepBy_of_fault (s := s.setInq q) _ hp]
    rfl
  | run =>
    by_cases hi : s.ip = s.plen
    · rw [stepBy_of_end _ hp hi, stepBy_of_end (s := s.setInq q) _ hp hi]
      rfl
    · cases hc : s.fetch with
      | none =>
        rw [stepBy_of_no_cell _ hp hi hc, stepBy_of_no_cell (s := s.setInq q) _ hp hi hc]
        rfl
      | some c =>
        rw [stepBy_of_fetch _ hp hc, stepBy_of_fetch (s := s.setInq q) _ hp hc, State.traceStep_setInq]
        exact execFrom_setInq_of_next_unit _ ((congrArg (unitFrom env · 0) (s.traceStep_inq c)).trans h)

/-! ### What a step leaves of the input -/

/-- No cell but a `,` takes a unit. -/
theorem execFrom_inq {env : Environment} {s t : State} {c : Byte} (hc : c ≠ codeIn)
    (h : execFrom env (decodeCell c) s = .next t) : t.inq = s.inq := by
  rcases execFrom_next h with ⟨-, v, w, -, rfl⟩ | ⟨hin, -⟩ | ⟨-, v, -, rfl⟩ | ⟨-, ⟨-, rfl⟩ | ⟨-, rfl⟩⟩ |
    ⟨-, ⟨-, -, rfl⟩ | ⟨-, -, rfl⟩ | ⟨-, rfl⟩⟩ | ⟨-, b, -, rfl⟩ | ⟨-, rfl⟩
  case inr.inl => exact absurd hin hc
  all_goals rfl

/-- R25: an `IN` with a next state has taken exactly one unit, a rejected one too (R120). -/
theorem execInFrom_units {env : Environment} {s t : State} (h : execInFrom env s = .next t) (n : Nat) :
    unitFrom env t.inq n = unitFrom env s.inq (n + 1) := by
  obtain ⟨u, q, hq, ⟨v, w, -, -, rfl⟩ | ⟨-, rfl⟩⟩ := execInFrom_next h <;>
    exact (InputQueue.takeFrom_eq_some hq).2 n

/-- The engine is at a `,`: the one place where a step takes a unit. -/
def AtInput (s : State) : Prop := s.phase = .run ∧ s.fetch = some codeIn

theorem stepFrom_units_of_atInput {env : Environment} {s t : State} (hs : AtInput s) (h : stepFrom env s = .next t)
    (n : Nat) : unitFrom env t.inq n = unitFrom env s.inq (n + 1) := by
  obtain ⟨hp, hc⟩ := hs
  rw [stepFrom, stepBy_of_fetch _ hp hc] at h
  simpa using execInFrom_units (s := s.traceStep codeIn) h n

theorem stepFrom_inq_of_not_atInput {env : Environment} {s t : State} (hs : ¬ AtInput s)
    (h : stepFrom env s = .next t) : t.inq = s.inq := by
  rcases stepBy_next h with ⟨-, rfl⟩ | ⟨-, -, rfl⟩ | ⟨hp, c, hc, he⟩
  · exact s.scan_inq
  · rfl
  · have hin : c ≠ codeIn := fun hin => hs ⟨hp, hin ▸ hc⟩
    rw [execFrom_inq hin he, State.traceStep_inq]

/-! ### Two runs on the same units -/

/-- Two states, each in its environment, that differ at most in the input and have their next `m` units in common. -/
structure SameForUnits (env env' : Environment) (m : Nat) (s s' : State) : Prop where
  state : withoutInput s = withoutInput s'
  units : ∀ k, k < m → unitFrom env s.inq k = unitFrom env' s'.inq k

/-- A step uses up at most one of the common units. -/
theorem SameForUnits.step {env env' : Environment} {m : Nat} {s s' t t' : State}
    (h : SameForUnits env env' (m + 1) s s') (ht : stepFrom env s = .next t) (ht' : stepFrom env' s' = .next t')
    (htt : withoutInput t = withoutInput t') : SameForUnits env env' m t t' := by
  refine ⟨htt, fun k hk => ?_⟩
  have hs' := eq_setInq_of_withoutInput h.state
  by_cases hin : AtInput s
  · have hin' : AtInput s' := by rw [hs']; exact hin
    rw [stepFrom_units_of_atInput hin ht, stepFrom_units_of_atInput hin' ht', h.units (k + 1) (by omega)]
  · have hin' : ¬ AtInput s' := by rw [hs']; exact hin
    rw [stepFrom_inq_of_not_atInput hin ht, stepFrom_inq_of_not_atInput hin' ht', h.units k (by omega)]

/-- With a unit in common the two steps answer the same. -/
theorem SameForUnits.sameButInput_stepFrom {env env' : Environment} {m : Nat} {s s' : State}
    (h : SameForUnits env env' (m + 1) s s') : sameButInput (stepFrom env s) (stepFrom env' s') := by
  rw [eq_setInq_of_withoutInput h.state]
  exact stepFrom_setInq (h.units 0 (by omega))

/-- With `n` units in common and `m` more, `n` steps answer the same and leave `m` units in common. -/
theorem SameForUnits.run {env env' : Environment} {m n : Nat} {s s' : State}
    (h : SameForUnits env env' (m + n) s s') :
    sameButInput (Host.Core.run (coreFrom env) n s) (Host.Core.run (coreFrom env') n s') ∧
    ∀ t t', Host.Core.run (coreFrom env) n s = .next t → Host.Core.run (coreFrom env') n s' = .next t' →
      SameForUnits env env' m t t' := by
  induction n generalizing s s' with
  | zero =>
    refine ⟨h.state, fun t t' ht ht' => ?_⟩
    cases ht
    cases ht'
    exact h
  | succ n ih =>
    rcases sameButInput_cases h.sameButInput_stepFrom with ⟨t, t', ht, ht', htt⟩ | ⟨f, ht, ht'⟩ | ⟨x, ht, ht'⟩
    · rw [coreRun_succ (M := coreFrom env) n ht, coreRun_succ (M := coreFrom env') n ht']
      exact ih (h.step ht ht' htt)
    · rw [coreRun_succ_fault (M := coreFrom env) n ht, coreRun_succ_fault (M := coreFrom env') n ht']
      exact ⟨rfl, fun _ _ h => by cases h⟩
    · rw [coreRun_succ_refused (M := coreFrom env) n ht, coreRun_succ_refused (M := coreFrom env') n ht']
      exact ⟨rfl, fun _ _ h => by cases h⟩

/-- A run of the host's machine is a run in its open environment (log 3). -/
theorem run_eq_run_coreFrom (n : Nat) (s : State) :
    Host.Core.run Sys2Proof.core n s = Host.Core.run (coreFrom Config.endlessUnit) n s := by
  change Host.Core.run ⟨State, Fault, Refusal, Machine.step, State.reset⟩ n s = _
  rw [show Machine.step = stepFrom Config.endlessUnit from funext step_eq_stepFrom]
  rfl

/-- A launch on an infinite input and one on its first `m` units have these `m` units in common. -/
theorem sameForUnits_launch (env env' : Environment) (m : Nat) (text : List Byte) (debug : Bool)
    (tapeMax : Option Nat) :
    SameForUnits env env' m (State.launch text debug tapeMax InputQueue.infinite)
      (State.launch text debug tapeMax (firstUnits env m)) where
  state := rfl
  units k hk := by
    have hinf : unitFrom env InputQueue.infinite k = some (env k) := by simp [unitFrom, InputQueue.infinite]
    exact hinf.trans (unitFrom_firstUnits env env' hk).symm

end Sys2Proof.Machine
end

section
/-! PROOFS. The statements of the scope (spec/00_scope.md). -/

namespace Sys2Proof.Scope

open Sys2Proof.Machine Sys2Proof.Safety

/-- Settles O6: the two phases without a step, one lemma each. -/
theorem noStepAfterTheEnd : Obligations.NoStepAfterTheEnd :=
  fun _ => ⟨stepBy_of_halt exec, stepBy_of_fault exec⟩

/-- Settles O23: each of the six reads or writes the current cell through `withCur`. -/
theorem absentCellStops : Obligations.AbsentCellStops := by
  refine fun s habs => ⟨fun i hi => ?_, fun u hu hvalid => ?_⟩
  · rcases hi with rfl | rfl | rfl | rfl | rfl <;> exact State.withCur_of_absent _ habs
  · obtain ⟨c, rfl, hc⟩ := hvalid
    obtain ⟨q, -, h⟩ := execInFrom_of_valid hu (validValue_eq_some.2 ⟨c, rfl, hc, rfl⟩)
    exact h.trans (State.withCur_of_absent _ habs)

/-- Settles O53: the step on the one unit alone has the same next unit, and only a `,` takes it. -/
theorem stepTakesOnlyTheNextUnit : Obligations.StepTakesOnlyTheNextUnit := by
  refine ⟨step_eq_stepFrom, fun env s => ⟨?_, fun t ht =>
    ⟨fun hin => stepFrom_units_of_atInput hin ht, fun hin => stepFrom_inq_of_not_atInput hin ht⟩⟩⟩
  rw [step_eq_stepFrom]
  refine stepFrom_setInq ?_
  cases unitFrom env s.inq 0 <;> rfl

/-- Settles O54: the two launches have `m` units in common, and each of the `n` steps uses up at most one. -/
theorem infiniteInputRunsAsItsPrefixes : Obligations.InfiniteInputRunsAsItsPrefixes := by
  intro env n m text debug tapeMax hnm
  have hlaunch := sameForUnits_launch env Config.endlessUnit m text debug tapeMax
  obtain ⟨r, rfl⟩ := Nat.exists_eq_add_of_le' hnm
  obtain ⟨hsame, hunits⟩ := hlaunch.run
  rw [run_eq_run_coreFrom]
  exact ⟨hsame, fun s t hs ht k hk => (hunits s t hs ht).units k (by omega)⟩

end Sys2Proof.Scope
end

section
/-! PROOFS. The rule that a step applies, as a relation with one named case for each way a step can go: a rule of the
resolver (R79 to R84), the halt (R96), or an operation of the engine on the traced state (R91). What every step keeps is
read off these cases, each written with the basic updates of Laws/State. -/

namespace Sys2Proof.Machine

open Sys2Proof.Safety

/-! ### The rules -/

/-- `t` is what the resolver's rule for `s` gives. -/
inductive ScanRule (s : State) : State → Prop where
  | opener (hc : s.readProg s.rs = some codeLoops) : ScanRule s (s.setStk (s.stk ++ [s.rs])).scanNext
  | closer {i : Nat} (hc : s.readProg s.rs = some codeLoope) (htop : s.stk.getLast? = some i) :
    ScanRule s (((s.setStk s.stk.dropLast).setEntry i s.rs).setEntry s.rs i).scanNext
  | unmatchedCloser (hc : s.readProg s.rs = some codeLoope) (hstk : s.stk = []) :
    ScanRule s (s.raise .unmatchedBracket codeLoope s.rs)
  | other {c : Byte} (hc : s.readProg s.rs = some c) (hopen : c ≠ codeLoops) (hclose : c ≠ codeLoope) :
    ScanRule s s.scanNext
  | success (hend : s.readProg s.rs = none) (hstk : s.stk = []) : ScanRule s (s.traceProgram.setPhase .run)
  | leftOver {b : Nat} (hend : s.readProg s.rs = none) (hbot : s.stk.head? = some b) :
    ScanRule s (s.raise .unmatchedBracket codeLoops b)

/-- `t` is what the operation in the cell `c`, with its advance, makes of `s` when it has a next state. -/
inductive OpRule (env : Environment) (c : Byte) (s : State) : State → Prop where
  | arith (hc : c = codeInc ∨ c = codeDec) {v w : Byte} (hcur : s.cur = some w) :
    OpRule env c s (s.writeTape s.cp v).advance
  | accept (hc : c = codeIn) {u : InputUnit} {q : InputQueue} {v w : Byte} (hq : s.inq.takeFrom env = some (u, q))
    (hv : validValue u = some v) (hcur : s.cur = some w) :
    OpRule env c s (((s.setInq q).writeTape s.cp v).setInwait false).advance
  | reject (hc : c = codeIn) {u : InputUnit} {q : InputQueue} (hq : s.inq.takeFrom env = some (u, q))
    (hv : validValue u = none) : OpRule env c s (((s.setInq q).emit .diag).setInwait true)
  | out (hc : c = codeOut) {v : Byte} (hcur : s.cur = some v) : OpRule env c s (s.emit (.out v)).advance
  | leftAtZero (hc : c = codeLeft) (hcp : s.cp = 0) : OpRule env c s (s.raise .negativeTapeIndex codeLeft s.ip)
  | left (hc : c = codeLeft) (hcp : s.cp ≠ 0) : OpRule env c s (s.setCp (s.cp - 1)).advance
  | rightAtLimit (hc : c = codeRight) (hend : s.cp + 1 = s.tlen) (hmax : s.tapeMax = some s.tlen) :
    OpRule env c s (s.raise .tapeLimit codeRight s.ip)
  | rightGrows (hc : c = codeRight) (hend : s.cp + 1 = s.tlen) (hmax : s.tapeMax ≠ some s.tlen) :
    OpRule env c s ((s.setCp (s.cp + 1)).tapeAppend).advance
  | right (hc : c = codeRight) (hend : s.cp + 1 ≠ s.tlen) : OpRule env c s (s.setCp (s.cp + 1)).advance
  | jump (hc : c = codeLoops ∨ c = codeLoope) (taken : Bool) {v : Byte} (hcur : s.cur = some v) :
    OpRule env c s (s.setIp (if taken then s.jumpEntry s.ip else s.ip)).advance
  | nop (hc : isInert c = true) : OpRule env c s s.advance

/-- `t` is what one step of `s` gives in the environment `env`. -/
inductive StepRule (env : Environment) (s t : State) : Prop where
  | scan (hp : s.phase = .resolve) (r : ScanRule s t)
  | halt (hp : s.phase = .run) (hip : s.ip = s.plen) (ht : t = s.setPhase .halt)
  | engine (hp : s.phase = .run) {c : Byte} (hf : s.fetch = some c) (r : OpRule env c (s.traceStep c) t)

theorem State.scan_rule (s : State) : ScanRule s s.scan := by
  rcases s.scan_cases with ⟨hc, h⟩ | ⟨i, hc, htop, h⟩ | ⟨hc, hstk, h⟩ | ⟨c, hc, h1, h2, h⟩ | ⟨hend, hstk, h⟩ |
    ⟨b, hend, hbot, h⟩ <;> rw [h]
  · exact .opener hc
  · exact .closer hc htop
  · exact .unmatchedCloser hc hstk
  · exact .other hc h1 h2
  · exact .success hend hstk
  · exact .leftOver hend hbot

theorem execFrom_rule {env : Environment} {s t : State} {c : Byte} (h : execFrom env (decodeCell c) s = .next t) :
    OpRule env c s t := by
  rcases execFrom_next h with ⟨hc, v, w, hcur, rfl⟩ |
    ⟨hc, u, q, hq, ⟨v, w, hv, hcur, rfl⟩ | ⟨hv, rfl⟩⟩ | ⟨hc, v, hcur, rfl⟩ | ⟨hc, ⟨hcp, rfl⟩ | ⟨hcp, rfl⟩⟩ |
    ⟨hc, ⟨hend, hmax, rfl⟩ | ⟨hend, hmax, rfl⟩ | ⟨hend, rfl⟩⟩ | ⟨hc, b, ⟨v, hcur⟩, rfl⟩ | ⟨hc, rfl⟩
  · exact .arith hc hcur
  · exact .accept hc hq hv hcur
  · exact .reject hc hq hv
  · exact .out hc hcur
  · exact .leftAtZero hc hcp
  · exact .left hc hcp
  · exact .rightAtLimit hc hend hmax
  · exact .rightGrows hc hend hmax
  · exact .right hc hend
  · exact .jump hc b hcur
  · exact .nop hc

/-- R9: every step with a next state applies one of the rules. -/
theorem stepFrom_rule {env : Environment} {s t : State} (h : stepFrom env s = .next t) : StepRule env s t := by
  rcases stepBy_next h with ⟨hp, rfl⟩ | ⟨hp, hip, rfl⟩ | ⟨hp, c, hf, he⟩
  · exact .scan hp s.scan_rule
  · exact .halt hp hip rfl
  · exact .engine hp hf (execFrom_rule he)

/-- The same of the host's step. -/
theorem step_rule {s t : State} (h : step s = .next t) : StepRule Config.endlessUnit s t :=
  stepFrom_rule (step_eq_stepFrom s ▸ h)

/-! ### Readers of two states that agree in what is read -/

theorem State.readTape_congr {s t : State} (htape : t.tape = s.tape) (htlen : t.tlen = s.tlen) (a : Nat) :
    t.readTape a = s.readTape a := by
  simp only [State.readTape, htape, htlen]

theorem State.readProg_congr {s t : State} (h : KeepsProgram s t) (a : Nat) : t.readProg a = s.readProg a := by
  obtain ⟨hprog, hplen, -, -⟩ := h
  simp only [State.readProg, hprog, hplen]

/-! ### What the resolver's rules keep -/

section Scan

variable {s t : State}

theorem ScanRule.keepsProgram (r : ScanRule s t) : KeepsProgram s t := by
  cases r <;> simp [KeepsProgram]

/-- The resolver leaves the engine's registers, the tape and the input alone. -/
theorem ScanRule.keepsEngine (r : ScanRule s t) :
    t.ip = s.ip ∧ t.cp = s.cp ∧ t.tape = s.tape ∧ t.tlen = s.tlen ∧ KeepsInput s t := by
  cases r <;> simp [KeepsInput]

/-- The phase after a resolver step, with the error record. -/
theorem ScanRule.goes_on_or_faults (r : ScanRule s t) (hp : s.phase = .resolve) :
    ((t.phase = .resolve ∨ t.phase = .run) ∧ KeepsErrorRecord s t) ∨ (t.phase = .fault ∧ t.ecause ≠ .none) := by
  cases r with
  | opener | closer | other => exact .inl ⟨.inl hp, rfl, rfl, rfl⟩
  | success => exact .inl ⟨.inr rfl, by simp [KeepsErrorRecord]⟩
  | unmatchedCloser | leftOver => exact .inr ⟨rfl, nofun⟩

end Scan

/-! ### What the engine's operations keep -/

section Op

variable {env : Environment} {c : Byte} {s t : State}

theorem OpRule.keepsProgram (r : OpRule env c s t) : KeepsProgram s t := by
  cases r <;> exact ⟨rfl, rfl, rfl, rfl⟩

theorem OpRule.keepsResolver (r : OpRule env c s t) : KeepsResolver s t := by
  cases r <;> exact ⟨rfl, rfl, rfl⟩

/-- R94, R130: an operation stays in its phase or takes a fault. -/
theorem OpRule.goes_on_or_faults (r : OpRule env c s t) :
    (t.phase = s.phase ∧ KeepsErrorRecord s t) ∨ (t.phase = .fault ∧ t.ecause ≠ .none) := by
  cases r with
  | leftAtZero | rightAtLimit => exact .inr ⟨rfl, nofun⟩
  | _ => exact .inl ⟨rfl, rfl, rfl, rfl⟩

/-- R45, R47: an operation appends a zero cell, or stores to the current cell, or leaves the tape alone. -/
theorem OpRule.tape_cases (r : OpRule env c s t) :
    (c = codeRight ∧ s.cp + 1 = s.tlen ∧ s.tapeMax ≠ some s.tlen ∧ t.tape = s.tape.write s.tlen 0 ∧
      t.tlen = s.tlen + 1) ∨
    (∃ v, s.cp < s.tlen ∧ t.tape = s.tape.write s.cp v ∧ t.tlen = s.tlen) ∨
    (t.tape = s.tape ∧ t.tlen = s.tlen) := by
  cases r with
  | rightGrows hc hend hmax => exact .inl ⟨hc, hend, hmax, rfl, rfl⟩
  | arith _ hcur | accept _ _ _ hcur => exact .inr (.inl ⟨_, State.lt_of_cur hcur, rfl, rfl⟩)
  | _ => exact .inr (.inr ⟨rfl, rfl⟩)

/-- R21: only a `>` and a `<` move `CP`, and never out of the tape. -/
theorem OpRule.cp_cases (r : OpRule env c s t) :
    t.cp = s.cp ∨ (c = codeRight ∧ t.cp = s.cp + 1 ∧ (s.cp < s.tlen → t.cp < t.tlen)) ∨
    (c = codeLeft ∧ t.cp + 1 = s.cp) := by
  cases r with
  | left hc hcp => exact .inr (.inr ⟨hc, Nat.succ_pred_eq_of_ne_zero hcp⟩)
  | rightGrows hc => exact .inr (.inl ⟨hc, rfl, Nat.succ_lt_succ⟩)
  | right hc hend => exact .inr (.inl ⟨hc, rfl, fun h => Nat.lt_of_le_of_ne h hend⟩)
  | _ => exact .inl rfl

/-- R20, R114: an operation stays, advances, or takes the jump of a bracket. -/
theorem OpRule.ip_cases (r : OpRule env c s t) :
    t.ip = s.ip ∨ t.ip = s.ip + 1 ∨ ((c = codeLoops ∨ c = codeLoope) ∧ t.ip = s.jumpEntry s.ip + 1) := by
  cases r with
  | reject | leftAtZero | rightAtLimit => exact .inl rfl
  | jump hc taken =>
    cases taken with
    | false => exact .inr (.inl rfl)
    | true => exact .inr (.inr ⟨hc, rfl⟩)
  | _ => exact .inr (.inl rfl)

/-- R23: no operation but `IN` writes `INWAIT`, and `IN` sets it only where it stays at its `,`. -/
theorem OpRule.inwait_cases (r : OpRule env c s t) :
    (c ≠ codeIn ∧ t.inwait = s.inwait) ∨ (c = codeIn ∧ (t.inwait = false ∨ (t.phase = s.phase ∧ t.ip = s.ip))) := by
  cases r with
  | accept hc => exact .inr ⟨hc, .inl rfl⟩
  | reject hc => exact .inr ⟨hc, .inr ⟨rfl, rfl⟩⟩
  | arith hc | jump hc => exact .inl ⟨by rcases hc with rfl | rfl <;> decide, rfl⟩
  | nop hc => exact .inl ⟨by rintro rfl; exact absurd hc (by decide), rfl⟩
  | out hc | leftAtZero hc | left hc | rightAtLimit hc | rightGrows hc | right hc =>
    exact .inl ⟨by subst hc; decide, rfl⟩

/-- R24: an operation emits at most one event, and only a `.` emits output. -/
theorem OpRule.hist_cases (r : OpRule env c s t) :
    ∃ es, t.hist = s.hist ++ es ∧ es.length ≤ 1 ∧ (c ≠ codeOut → outputOf es = []) := by
  cases r with
  | reject => exact ⟨[.diag], rfl, Nat.le_refl 1, fun _ => rfl⟩
  | out hc => exact ⟨[.out _], rfl, Nat.le_refl 1, fun h => absurd hc h⟩
  | _ => exact ⟨[], (List.append_nil _).symm, Nat.zero_le 1, fun _ => rfl⟩

end Op

/-! ### What every step keeps -/

section Step

variable {env : Environment} {s t : State}

theorem StepRule.keepsProgram (h : StepRule env s t) : KeepsProgram s t := by
  cases h with
  | scan _ r => exact r.keepsProgram
  | halt _ _ ht => subst ht; exact ⟨rfl, rfl, rfl, rfl⟩
  | engine _ _ r => simpa [KeepsProgram] using r.keepsProgram

/-- R89: after the resolver nothing writes its registers. -/
theorem StepRule.keepsResolver (h : StepRule env s t) (hp : s.phase = .run) : KeepsResolver s t := by
  cases h with
  | scan hp' => exact absurd (hp.symm.trans hp') nofun
  | halt _ _ ht => subst ht; exact ⟨rfl, rfl, rfl⟩
  | engine _ _ r => simpa [KeepsResolver] using r.keepsResolver

/-- R14 with R26: the transitions of `PHASE`, and that the error record is kept outside fault entry. -/
theorem StepRule.phase_cases (h : StepRule env s t) :
    (s.phase = .resolve ∧ (t.phase = .resolve ∨ t.phase = .run) ∧ KeepsErrorRecord s t) ∨
    (s.phase = .run ∧ (t.phase = .run ∨ (t.phase = .halt ∧ t.ip = t.plen)) ∧ KeepsErrorRecord s t) ∨
    ((s.phase = .resolve ∨ s.phase = .run) ∧ t.phase = .fault ∧ t.ecause ≠ .none) := by
  cases h with
  | scan hp r =>
    rcases r.goes_on_or_faults hp with ⟨ht, hrec⟩ | ht
    · exact .inl ⟨hp, ht, hrec⟩
    · exact .inr (.inr ⟨.inl hp, ht⟩)
  | halt hp hip ht => subst ht; exact .inr (.inl ⟨hp, .inr ⟨rfl, hip⟩, rfl, rfl, rfl⟩)
  | engine hp _ r =>
    rcases r.goes_on_or_faults with ⟨ht, hrec⟩ | ht
    · exact .inr (.inl ⟨hp, .inl (by simpa [hp] using ht), by simpa [KeepsErrorRecord] using hrec⟩)
    · exact .inr (.inr ⟨.inr hp, ht⟩)

theorem StepRule.tape_cases (h : StepRule env s t) :
    (s.phase = .run ∧ s.fetch = some codeRight ∧ s.cp + 1 = s.tlen ∧ s.tapeMax ≠ some s.tlen ∧
      t.tape = s.tape.write s.tlen 0 ∧ t.tlen = s.tlen + 1) ∨
    (s.phase = .run ∧ ∃ v, s.cp < s.tlen ∧ t.tape = s.tape.write s.cp v ∧ t.tlen = s.tlen) ∨
    (t.tape = s.tape ∧ t.tlen = s.tlen) := by
  cases h with
  | scan _ r =>
    obtain ⟨-, -, htape, htlen, -⟩ := r.keepsEngine
    exact .inr (.inr ⟨htape, htlen⟩)
  | halt _ _ ht => subst ht; exact .inr (.inr ⟨rfl, rfl⟩)
  | engine hp hf r => simpa [hp, hf] using r.tape_cases

theorem StepRule.cp_cases (h : StepRule env s t) :
    t.cp = s.cp ∨
    (s.phase = .run ∧ s.fetch = some codeRight ∧ t.cp = s.cp + 1 ∧ (s.cp < s.tlen → t.cp < t.tlen)) ∨
    (s.phase = .run ∧ s.fetch = some codeLeft ∧ t.cp + 1 = s.cp) := by
  cases h with
  | scan _ r =>
    obtain ⟨-, hcp, -⟩ := r.keepsEngine
    exact .inl hcp
  | halt _ _ ht => subst ht; exact .inl rfl
  | engine hp hf r => simpa [hp, hf] using r.cp_cases

theorem StepRule.ip_cases (h : StepRule env s t) :
    t.ip = s.ip ∨ (s.phase = .run ∧ s.ip < s.plen ∧ t.ip = s.ip + 1) ∨
    (s.phase = .run ∧ (s.fetch = some codeLoops ∨ s.fetch = some codeLoope) ∧ t.ip = s.jumpEntry s.ip + 1) := by
  cases h with
  | scan _ r =>
    obtain ⟨hip, -⟩ := r.keepsEngine
    exact .inl hip
  | halt _ _ ht => subst ht; exact .inl rfl
  | engine hp hf r => simpa [hp, hf, State.lt_of_readProg hf] using r.ip_cases

theorem StepRule.inwait_cases (h : StepRule env s t) :
    (¬ AtInput s ∧ t.inwait = s.inwait) ∨ (AtInput s ∧ (t.inwait = false ∨ (t.phase = .run ∧ t.ip = s.ip))) := by
  cases h with
  | scan hp r =>
    obtain ⟨-, -, -, -, -, hin⟩ := r.keepsEngine
    exact .inl ⟨fun hat => absurd (hp.symm.trans hat.1) nofun, hin⟩
  | halt _ hip ht =>
    subst ht
    exact .inl ⟨fun hat => absurd (State.lt_of_readProg hat.2) (by omega), rfl⟩
  | engine hp hf r => simpa [AtInput, hp, hf] using r.inwait_cases

end Step

end Sys2Proof.Machine
end

section
/-! PROOFS. The Jump Table under construction (spec/10_state.md R31 items 5 and 6): each rule of the resolver keeps
`TableSound` for the text read so far. -/

namespace Sys2Proof.Safety

open Sys2Proof.Machine

section Table

variable {s t : State} {n : Nat} {stk : List Nat}

/-- A table is sound in any state with the same table and the same program. -/
theorem TableSound.congr (h : TableSound s n stk) (hprog : KeepsProgram s t) (hjt : t.jt = s.jt) :
    TableSound t n stk := by
  obtain ⟨domain, pairing, nesting, openOutside⟩ := h
  constructor <;> simpa only [IsOpener, IsCloser, hjt, State.readProg_congr hprog]

/-- Nothing read, nothing recorded. -/
theorem tableSound_zero (hjt : s.jt = []) : TableSound s 0 [] where
  domain p := by simp [hjt, Assoc.get]
  pairing p q h := by simp [hjt, Assoc.get] at h
  nesting i j i' j' h := by simp [hjt, Assoc.get] at h
  openOutside p h := by simp at h

/-- An entry of the table stands at a position that has been read and waits for no partner. -/
theorem TableSound.lt_of_get (h : TableSound s n stk) {p q : Nat} (hpq : Assoc.get s.jt p = some q) :
    p < n ∧ p ∉ stk :=
  have ⟨hlt, _, hstk⟩ := (h.domain p).1 ⟨q, hpq⟩
  ⟨hlt, hstk⟩

/-- Both ends of a pair have been read. -/
theorem TableSound.partner_lt (h : TableSound s n stk) {p q : Nat} (hpq : Assoc.get s.jt p = some q) :
    q < n ∧ q ∉ stk :=
  h.lt_of_get (h.pairing p q hpq).1

/-- R79: an opener waits, outside every pair recorded before it. -/
theorem TableSound.push (h : TableSound s n stk) (hn : IsOpener s n) : TableSound s (n + 1) (stk ++ [n]) where
  domain p := by
    rw [h.domain p, List.mem_append, List.mem_singleton, Nat.lt_succ_iff_lt_or_eq]
    constructor
    · rintro ⟨hlt, hb, hstk⟩
      exact ⟨.inl hlt, hb, by rintro (hp | rfl); exacts [hstk hp, Nat.lt_irrefl _ hlt]⟩
    · rintro ⟨hlt, hb, hstk⟩
      rw [not_or] at hstk
      exact ⟨hlt.resolve_right hstk.2, hb, hstk.1⟩
  pairing := h.pairing
  nesting := h.nesting
  openOutside p hp i j hij hlt := by
    rcases List.mem_append.1 hp with hp | hp
    · exact h.openOutside p hp i j hij hlt
    · obtain rfl := List.mem_singleton.1 hp
      have := (h.partner_lt hij).1
      omega

/-- R82: a character that is no bracket has no entry. -/
theorem TableSound.skip (h : TableSound s n stk) (hopen : ¬ IsOpener s n) (hclose : ¬ IsCloser s n) :
    TableSound s (n + 1) stk where
  domain p := by
    rw [h.domain p, Nat.lt_succ_iff_lt_or_eq]
    constructor
    · rintro ⟨hlt, hrest⟩
      exact ⟨.inl hlt, hrest⟩
    · rintro ⟨hlt | rfl, hb, hstk⟩
      · exact ⟨hlt, hb, hstk⟩
      · exact absurd hb (not_or.2 ⟨hopen, hclose⟩)
  pairing := h.pairing
  nesting := h.nesting
  openOutside := h.openOutside

/-- The table that gains the pair of `n` and the waiting `i` keeps every other entry and loses none. -/
theorem TableSound.get_pair (h : TableSound s n stk) {i p q : Nat} (hi : i ∈ stk) (hin : i < n) :
    Assoc.get (Assoc.set (Assoc.set s.jt i n) n i) p = some q ↔
      (p = n ∧ q = i) ∨ (p = i ∧ q = n) ∨ Assoc.get s.jt p = some q := by
  have hnone : Assoc.get s.jt n = none ∧ Assoc.get s.jt i = none :=
    ⟨Option.eq_none_iff_forall_ne_some.2 fun _ hq => (h.lt_of_get hq).1.ne rfl,
      Option.eq_none_iff_forall_ne_some.2 fun _ hq => (h.lt_of_get hq).2 hi⟩
  by_cases hn : p = n
  · rw [hn, Assoc.get_set_same]
    simp [hnone, hin.ne', eq_comm]
  · rw [Assoc.get_set_other _ _ _ _ hn]
    by_cases hpi : p = i
    · rw [hpi, Assoc.get_set_same]
      simp [hnone, hin.ne, eq_comm]
    · rw [Assoc.get_set_other _ _ _ _ hpi]
      simp [hn, hpi]

/-- R80: a closer completes the pair with the innermost waiting opener `i`, inside every pair around `i` and around
every pair recorded since. -/
theorem TableSound.pair {below : List Nat} {i : Nat} (h : TableSound s n (below ++ [i]))
    (hrising : (below ++ [i]).Pairwise (· < ·)) (hi : IsOpener s i) (hin : i < n) (hn : IsCloser s n)
    (hprog : KeepsProgram s t) (hjt : t.jt = Assoc.set (Assoc.set s.jt i n) n i) : TableSound t (n + 1) below := by
  have hmem : i ∈ below ++ [i] := by simp
  have hget : ∀ p q, Assoc.get t.jt p = some q ↔
      (p = n ∧ q = i) ∨ (p = i ∧ q = n) ∨ Assoc.get s.jt p = some q := fun p q => by
    rw [hjt, h.get_pair hmem hin]
  have hbelow : ∀ p ∈ below, p < i := fun p hp => (List.pairwise_append.1 hrising).2.2 p hp i (by simp)
  have hread := State.readProg_congr hprog
  constructor
  case domain =>
    intro p
    simp only [hget, IsOpener, IsCloser, hread]
    by_cases hpn : p = n
    · subst hpn
      exact ⟨fun _ => ⟨Nat.lt_succ_self p, .inr hn, fun hp => Nat.lt_asymm hin (hbelow p hp)⟩,
        fun _ => ⟨i, .inl ⟨rfl, rfl⟩⟩⟩
    · by_cases hpi : p = i
      · subst hpi
        exact ⟨fun _ => ⟨Nat.lt_succ_of_lt hin, .inl hi, fun hp => Nat.lt_irrefl p (hbelow p hp)⟩,
          fun _ => ⟨n, .inr (.inl ⟨rfl, rfl⟩)⟩⟩
      · have hlt : p < n + 1 ↔ p < n := by omega
        simpa [IsOpener, IsCloser, hpn, hpi, hlt] using h.domain p
  case pairing =>
    intro p q hpq
    simp only [hget, IsOpener, IsCloser, hread] at hpq ⊢
    rcases hpq with ⟨rfl, rfl⟩ | ⟨rfl, rfl⟩ | hpq
    · exact ⟨.inr (.inl ⟨rfl, rfl⟩), .inr ⟨hn, hi, hin⟩⟩
    · exact ⟨.inl ⟨rfl, rfl⟩, .inl ⟨hi, hn, hin⟩⟩
    · have ⟨hqp, hkind⟩ := h.pairing p q hpq
      exact ⟨.inr (.inr hqp), hkind⟩
  case nesting =>
    intro a b a' b' hab hlt hab' hlt' haa
    rcases (hget a b).1 hab with ⟨rfl, rfl⟩ | ⟨rfl, rfl⟩ | hab
    · omega
    · rcases (hget a' b').1 hab' with ⟨rfl, rfl⟩ | ⟨rfl, rfl⟩ | hab'
      · omega
      · omega
      · exact .inr (h.partner_lt hab').1
    · rcases (hget a' b').1 hab' with ⟨rfl, rfl⟩ | ⟨rfl, rfl⟩ | hab'
      · omega
      · have hout := h.openOutside a' hmem a b hab hlt
        have hne : b ≠ a' := fun hb => (h.partner_lt hab).2 (hb ▸ hmem)
        omega
      · exact h.nesting a b a' b' hab hlt hab' hlt' haa
  case openOutside =>
    intro p hp a b hab hlt
    rcases (hget a b).1 hab with ⟨rfl, rfl⟩ | ⟨rfl, rfl⟩ | hab
    · omega
    · have := hbelow p hp
      omega
    · exact h.openOutside p (List.mem_append_left _ hp) a b hab hlt

end Table

end Sys2Proof.Safety
end

section
/-! PROOFS. The invariant (spec/10_state.md R31): a launch meets it and every step rule keeps it, clause by clause. -/

namespace Sys2Proof.Safety

open Sys2Proof.Machine

section Clauses

variable {env : Environment} {s t : State}

/-! ### The resolver's clauses -/

/-- R79, R80, R82: while the scan goes on its registers fit the text read so far. -/
theorem resolving_of_scanRule (r : ScanRule s t) (hs : Resolving s) (ht : t.phase = .resolve) : Resolving t := by
  have hprog := r.keepsProgram
  obtain ⟨hrange, hrising, hopeners, htable, hfresh⟩ := hs
  cases r with
  | opener hc =>
    refine ⟨State.lt_of_readProg hc, ?_, fun p hp => ?_, (htable.push hc).congr hprog rfl, hfresh⟩
    · exact List.pairwise_append.2 ⟨hrising, List.pairwise_singleton _ _, fun p hp q hq => by
        rw [List.mem_singleton.1 hq]
        exact (hopeners p hp).1⟩
    · rcases List.mem_append.1 hp with hp | hp
      · exact ⟨Nat.lt_succ_of_lt (hopeners p hp).1, (hopeners p hp).2⟩
      · rw [List.mem_singleton.1 hp]
        exact ⟨Nat.lt_succ_self _, hc⟩
  | @closer i hc htop =>
    obtain ⟨below, hstk⟩ := List.getLast?_eq_some_iff.1 htop
    rw [hstk] at hrising hopeners htable
    have hdrop : s.stk.dropLast = below := by simp [hstk]
    obtain ⟨hlt, hopen⟩ := hopeners i (by simp)
    have htable' := htable.pair hrising hopen hlt hc hprog rfl
    refine ⟨State.lt_of_readProg hc, ?_, fun p hp => ?_, ?_, hfresh⟩
    · simpa [hdrop] using (List.pairwise_append.1 hrising).1
    · have hp : p ∈ below := by simpa [hdrop] using hp
      obtain ⟨hplt, hpopen⟩ := hopeners p (List.mem_append_left _ hp)
      exact ⟨Nat.lt_succ_of_lt hplt, hpopen⟩
    · simpa [hdrop] using htable'
  | other hc hopen hclose =>
    have hskip := htable.skip (fun h => hopen (Option.some.inj (hc.symm.trans h)))
      (fun h => hclose (Option.some.inj (hc.symm.trans h)))
    exact ⟨State.lt_of_readProg hc, hrising, fun p hp => ⟨Nat.lt_succ_of_lt (hopeners p hp).1, (hopeners p hp).2⟩,
      hskip.congr hprog rfl, hfresh⟩
  | success | unmatchedCloser | leftOver => exact absurd ht nofun

/-- R83: when the scan ends with nothing waiting the table is complete. -/
theorem tableSound_of_scanRule (r : ScanRule s t) (hp : s.phase = .resolve) (hs : Resolving s)
    (ht : t.phase = .run ∨ t.phase = .halt) : TableSound t t.plen [] := by
  have hprog := r.keepsProgram
  cases r with
  | success hend hstk =>
    have hrs : s.rs = s.plen := Nat.le_antisymm hs.scanInRange (State.readProg_eq_none.1 hend)
    have htable := hs.table
    rw [hrs, hstk] at htable
    simpa using htable.congr hprog (State.traceProgram_jt s)
  | opener | closer | other => rcases ht with ht | ht <;> exact absurd (hp.symm.trans ht) nofun
  | unmatchedCloser | leftOver => rcases ht with ht | ht <;> exact absurd ht nofun

/-! ### One clause of the invariant each -/

theorem progCanonical_of_stepRule (h : StepRule env s t) (hs : Inv s) :
    Memory.wf t.prog ∧ ∀ e ∈ t.prog, e.1 < t.plen := by
  obtain ⟨hprog, hplen, -, -⟩ := h.keepsProgram
  rw [hprog, hplen]
  exact hs.progCanonical

/-- A write below the length keeps a memory canonical and within its length. -/
theorem canonical_write {m : Memory} {n a : Nat} (v : Byte) (h : m.wf ∧ ∀ e ∈ m, e.1 < n) (ha : a < n) :
    (m.write a v).wf ∧ ∀ e ∈ m.write a v, e.1 < n := by
  obtain ⟨hwf, hlt⟩ := h
  refine ⟨Memory.wf_write a v hwf, fun e he => ?_⟩
  rcases Memory.mem_write he with rfl | he
  · exact ha
  · exact hlt e he

theorem tapeCanonical_of_stepRule (h : StepRule env s t) (hs : Inv s) :
    Memory.wf t.tape ∧ ∀ e ∈ t.tape, e.1 < t.tlen := by
  obtain ⟨hwf, hlt⟩ := hs.tapeCanonical
  rcases h.tape_cases with ⟨-, -, -, -, htape, htlen⟩ | ⟨-, v, hcp, htape, htlen⟩ | ⟨htape, htlen⟩ <;>
    rw [htape, htlen]
  · exact canonical_write 0 ⟨hwf, fun e he => Nat.lt_succ_of_lt (hlt e he)⟩ (Nat.lt_succ_self _)
  · exact canonical_write v ⟨hwf, hlt⟩ hcp
  · exact ⟨hwf, hlt⟩

theorem rising_of_scanRule (r : ScanRule s t) (hs : Assoc.Rising s.jt) : Assoc.Rising t.jt := by
  cases r with
  | closer => exact Assoc.rising_set _ _ (Assoc.rising_set _ _ hs)
  | success => rwa [State.setPhase_jt, State.traceProgram_jt]
  | opener | unmatchedCloser | other | leftOver => exact hs

theorem tableCanonical_of_stepRule (h : StepRule env s t) (hs : Inv s) : Assoc.Rising t.jt := by
  cases h with
  | scan _ r => exact rising_of_scanRule r hs.tableCanonical
  | halt _ _ ht => rw [ht]; exact hs.tableCanonical
  | engine _ _ r =>
    obtain ⟨-, -, hjt⟩ := r.keepsResolver
    rw [hjt, State.traceStep_jt]
    exact hs.tableCanonical

/-- R45: `TLEN` never decreases. -/
theorem tlen_le_of_stepRule (h : StepRule env s t) : s.tlen ≤ t.tlen := by
  rcases h.tape_cases with ⟨-, -, -, -, -, htlen⟩ | ⟨-, v, -, -, htlen⟩ | ⟨-, htlen⟩ <;> omega

theorem pointerInTape_of_stepRule (h : StepRule env s t) (hs : Inv s) : t.cp < t.tlen := by
  have hin := hs.pointerInTape
  have htlen := tlen_le_of_stepRule h
  rcases h.cp_cases with hcp | ⟨-, -, -, hcp⟩ | ⟨-, -, hcp⟩
  · omega
  · exact hcp hin
  · omega

theorem tapeWithinCapacity_of_stepRule (h : StepRule env s t) (hs : Inv s) (m : Nat) (hm : t.tapeMax = some m) :
    t.tlen ≤ m := by
  obtain ⟨-, -, -, hmax⟩ := h.keepsProgram
  rw [hmax] at hm
  have hle := hs.tapeWithinCapacity m hm
  rcases h.tape_cases with ⟨-, -, -, hroom, -, htlen⟩ | ⟨-, v, -, -, htlen⟩ | ⟨-, htlen⟩
  · have hne : s.tlen ≠ m := fun heq => hroom (heq ▸ hm)
    omega
  · omega
  · omega

theorem resolving_of_stepRule (h : StepRule env s t) (hs : Inv s) (ht : t.phase = .resolve) : Resolving t := by
  cases h with
  | scan hp r => exact resolving_of_scanRule r (hs.resolving hp) ht
  | halt _ _ hhalt => subst hhalt; exact absurd ht nofun
  | engine hp _ r =>
    rcases r.goes_on_or_faults with ⟨hphase, -⟩ | ⟨hphase, -⟩ <;> simp [hp, ht] at hphase

theorem tableComplete_of_stepRule (h : StepRule env s t) (hs : Inv s) (ht : t.phase = .run ∨ t.phase = .halt) :
    TableSound t t.plen [] := by
  by_cases hp : s.phase = .run
  · obtain ⟨-, hplen, -, -⟩ := h.keepsProgram
    obtain ⟨-, -, hjt⟩ := h.keepsResolver hp
    rw [hplen]
    exact (hs.tableComplete (.inl hp)).congr h.keepsProgram hjt
  · cases h with
    | scan hp' r => exact tableSound_of_scanRule r hp' (hs.resolving hp') ht
    | halt hp' | engine hp' => exact absurd hp' hp

/-- R31 item 6, R112: at a bracket of the running program the table names a partner inside the text. -/
theorem jumpEntry_lt_plen (hs : Inv s) (hp : s.phase = .run)
    (hf : s.fetch = some codeLoops ∨ s.fetch = some codeLoope) : s.jumpEntry s.ip < s.plen := by
  have htable := hs.tableComplete (.inl hp)
  have hlt : s.ip < s.plen := hf.elim State.lt_of_readProg State.lt_of_readProg
  obtain ⟨q, hq⟩ := (htable.domain s.ip).2 ⟨hlt, hf, List.not_mem_nil⟩
  rw [State.jumpEntry_of_get hq]
  exact (htable.partner_lt hq).1

theorem ipInRange_of_stepRule (h : StepRule env s t) (hs : Inv s) (ht : t.phase ≠ .fault) : t.ip ≤ t.plen := by
  obtain ⟨-, hplen, -, -⟩ := h.keepsProgram
  rcases h.ip_cases with hip | ⟨hp, hlt, hip⟩ | ⟨hp, hf, hip⟩
  · rcases h.phase_cases with ⟨hp, -⟩ | ⟨hp, -⟩ | ⟨-, hfault, -⟩
    · have hfresh := (hs.resolving hp).engineFresh.1
      omega
    · have hin := hs.ipInRange hp
      omega
    · exact absurd hfault ht
  · omega
  · have hpartner := jumpEntry_lt_plen hs hp hf
    omega

theorem ipAtEnd_of_stepRule (h : StepRule env s t) (ht : t.phase = .halt) : t.ip = t.plen := by
  rcases h.phase_cases with ⟨-, hr, -⟩ | ⟨-, hr | ⟨-, hip⟩, -⟩ | ⟨-, hr, -⟩
  · simp [ht] at hr
  · simp [ht] at hr
  · exact hip
  · simp [ht] at hr

/-- R26, R130: the record stays clear until a fault is taken, and fault entry fills it. -/
theorem record_of_stepRule (h : StepRule env s t) (hs : Inv s) :
    (t.phase ≠ .fault ∧ t.ecause = .none ∧ t.echar = 0 ∧ t.epos = 0) ∨ (t.phase = .fault ∧ t.ecause ≠ .none) := by
  have hclear : s.phase ≠ .fault → KeepsErrorRecord s t → t.ecause = .none ∧ t.echar = 0 ∧ t.epos = 0 := by
    rintro hp ⟨hcause, hchar, hpos⟩
    have hnone : s.ecause = .none := not_not.1 (mt hs.causeIffFault.1 hp)
    rw [hcause, hchar, hpos]
    exact ⟨hnone, hs.recordClear hnone⟩
  rcases h.phase_cases with ⟨hp, ht, hrec⟩ | ⟨hp, ht, hrec⟩ | ⟨-, ht⟩
  · exact .inl ⟨by rcases ht with ht | ht <;> simp [ht], hclear (by simp [hp]) hrec⟩
  · exact .inl ⟨by rcases ht with ht | ⟨ht, -⟩ <;> simp [ht], hclear (by simp [hp]) hrec⟩
  · exact .inr ht

theorem waitingAtInput_of_stepRule (h : StepRule env s t) (hs : Inv s) (hw : t.inwait = true) :
    t.phase = .run ∧ t.fetch = some codeIn := by
  rcases h.inwait_cases with ⟨hat, hin⟩ | ⟨⟨-, hf⟩, hin | ⟨hp, hip⟩⟩
  · exact absurd (hs.waitingAtInput (hin ▸ hw)) hat
  · exact absurd (hin.symm.trans hw) nofun
  · exact ⟨hp, by rw [State.fetch, hip, State.readProg_congr h.keepsProgram]; exact hf⟩

/-- R31: every step rule keeps the invariant. -/
theorem inv_of_stepRule (h : StepRule env s t) (hs : Inv s) : Inv t where
  progCanonical := progCanonical_of_stepRule h hs
  tapeCanonical := tapeCanonical_of_stepRule h hs
  tableCanonical := tableCanonical_of_stepRule h hs
  pointerInTape := pointerInTape_of_stepRule h hs
  tapeWithinCapacity := tapeWithinCapacity_of_stepRule h hs
  resolving := resolving_of_stepRule h hs
  tableComplete := tableComplete_of_stepRule h hs
  ipInRange ht := ipInRange_of_stepRule h hs (by simp [ht])
  ipAtEnd := ipAtEnd_of_stepRule h
  causeIffFault := by
    rcases record_of_stepRule h hs with ⟨ht, hcause, -⟩ | ⟨ht, hcause⟩ <;> simp [ht, hcause]
  recordClear hnone := by
    rcases record_of_stepRule h hs with ⟨-, -, hrec⟩ | ⟨-, hcause⟩
    · exact hrec
    · exact absurd hnone hcause
  waitingAtInput := waitingAtInput_of_stepRule h hs

end Clauses

/-! ### The first state of a run -/

/-- R32: the launch state, before anything has been scanned. -/
theorem resolving_launch (text : List Byte) (debug : Bool) (tapeMax : Option Nat) (input : InputQueue) :
    Resolving (State.launch text debug tapeMax input) where
  scanInRange := Nat.zero_le _
  stackRising := List.Pairwise.nil
  stackOpeners _ hp := absurd hp List.not_mem_nil
  table := tableSound_zero rfl
  engineFresh := ⟨rfl, rfl, rfl, rfl, rfl⟩

theorem inv_launch (text : List Byte) (debug : Bool) {tapeMax : Option Nat} (input : InputQueue)
    (hmax : ∀ m, tapeMax = some m → 1 ≤ m) : Inv (State.launch text debug tapeMax input) where
  progCanonical := ⟨Memory.wf_load 0 text, fun _ he => (Memory.mem_load he).2.trans_eq (Nat.zero_add _)⟩
  tapeCanonical := ⟨Memory.wf_nil, fun _ he => absurd he List.not_mem_nil⟩
  tableCanonical := List.Pairwise.nil
  pointerInTape := Nat.zero_lt_one
  tapeWithinCapacity := hmax
  resolving _ := resolving_launch text debug tapeMax input
  tableComplete hp := by rcases hp with hp | hp <;> exact absurd hp nofun
  ipInRange _ := Nat.zero_le _
  ipAtEnd hp := absurd hp nofun
  causeIffFault := ⟨fun hc => absurd rfl hc, fun hp => absurd hp nofun⟩
  recordClear _ := ⟨rfl, rfl⟩
  waitingAtInput hw := absurd hw nofun

end Sys2Proof.Safety
end

section
/-! PROOFS. What a step does to `HIST` and to the input, and what the first state of a run holds. -/

namespace Sys2Proof.Machine

open Sys2Proof.Safety

/-! ### The history -/

/-- A trace before an operation is at most one event. -/
theorem State.traceStep_appends (s : State) (c : Byte) :
    ∃ es, (s.traceStep c).hist = s.hist ++ es ∧ es.length ≤ 1 ∧ outputOf es = [] := by
  rw [State.traceStep_hist]
  split
  · exact ⟨_, rfl, Nat.le_refl 1, rfl⟩
  · exact ⟨[], (List.append_nil _).symm, Nat.zero_le 1, rfl⟩

/-- A resolver step emits at most the program report. -/
theorem ScanRule.hist_cases {s t : State} (r : ScanRule s t) :
    ∃ es, t.hist = s.hist ++ es ∧ es.length ≤ 1 ∧ outputOf es = [] := by
  cases r with
  | success =>
    rw [State.setPhase_hist, State.traceProgram_hist]
    split
    · exact ⟨_, rfl, Nat.le_refl 1, rfl⟩
    · exact ⟨[], (List.append_nil _).symm, Nat.zero_le 1, rfl⟩
  | opener | closer | unmatchedCloser | other | leftOver =>
    exact ⟨[], (List.append_nil _).symm, Nat.zero_le 1, rfl⟩

/-- R24: a step appends a trace and an event of the operation at most, and only a `.` appends output. -/
theorem StepRule.hist_cases {env : Environment} {s t : State} (h : StepRule env s t) :
    ∃ es, t.hist = s.hist ++ es ∧ es.length ≤ 2 ∧
      (¬ (s.phase = .run ∧ s.fetch = some codeOut) → outputOf es = []) := by
  cases h with
  | scan _ r =>
    obtain ⟨es, hes, hlen, hout⟩ := r.hist_cases
    exact ⟨es, hes, by omega, fun _ => hout⟩
  | halt _ _ ht => subst ht; exact ⟨[], (List.append_nil _).symm, Nat.zero_le 2, fun _ => rfl⟩
  | engine hp hf r =>
    obtain ⟨tr, htr, htrlen, htrout⟩ := s.traceStep_appends _
    obtain ⟨es, hes, hlen, hout⟩ := r.hist_cases
    refine ⟨tr ++ es, by rw [hes, htr, List.append_assoc], by rw [List.length_append]; omega, fun hat => ?_⟩
    rw [outputOf_append, htrout, hout fun hc => hat ⟨hp, hc ▸ hf⟩]
    rfl

/-- R116: the step of a `.` adds the current cell to the output. -/
theorem step_output_of_out {s t : State} (h : step s = .next t) (hp : s.phase = .run) (hf : s.fetch = some codeOut) :
    ∃ v, s.cur = some v ∧ t.output = s.output ++ [v] := by
  rw [step, stepBy_of_fetch _ hp hf] at h
  obtain ⟨v, hv, rfl⟩ := execOut_next (s := s.traceStep codeOut) h
  obtain ⟨tr, htr, -, hout⟩ := s.traceStep_appends codeOut
  rw [State.traceStep_cur] at hv
  exact ⟨v, hv, by simp [State.output, htr, hout]⟩

/-! ### The input -/

/-- R122: a step at a `,` has a unit to take. -/
theorem unit_of_stepFrom_atInput {env : Environment} {s t : State} (hat : AtInput s) (h : stepFrom env s = .next t) :
    ∃ u, unitFrom env s.inq 0 = some u := by
  obtain ⟨hp, hf⟩ := hat
  rw [stepFrom, stepBy_of_fetch _ hp hf] at h
  obtain ⟨u, q, hq, -⟩ := execInFrom_next (s := s.traceStep codeIn) h
  rw [State.traceStep_inq] at hq
  exact ⟨u, (InputQueue.takeFrom_eq_some hq).1⟩

/-! ### The loaded program -/

/-- R152: the loaded text, read back position by position. -/
theorem State.launch_readProg (text : List Byte) (debug : Bool) (tapeMax : Option Nat) (input : InputQueue) (p : Nat) :
    (State.launch text debug tapeMax input).readProg p = text[p]? := by
  by_cases hp : p < text.length
  · have hread := Memory.read_load text 0 p hp
    rw [Nat.zero_add] at hread
    rw [State.readProg_of_lt hp, List.getElem?_eq_getElem hp]
    exact congrArg some hread
  · rw [State.readProg_eq_none.2 (Nat.le_of_not_lt hp), List.getElem?_eq_none (Nat.le_of_not_lt hp)]

/-- The program text is what `PROG` holds, position by position. -/
theorem State.text_getElem? (s : State) (p : Nat) : s.text[p]? = s.readProg p := by
  by_cases hp : p < s.plen <;> simp [State.text, Memory.cells, State.readProg, hp]

/-- R152: the loaded text as a whole. -/
theorem State.launch_text (text : List Byte) (debug : Bool) (tapeMax : Option Nat) (input : InputQueue) :
    (State.launch text debug tapeMax input).text = text :=
  List.ext_getElem? fun p => by rw [State.text_getElem?, State.launch_readProg]

end Sys2Proof.Machine
end

section
/-! PROOFS. The statements of the state (spec/10_state.md). -/

namespace Sys2Proof.StateElements

open Sys2Proof.Machine Sys2Proof.Safety

/-- Settles O49: the rule that the step applies keeps each clause. -/
theorem stepKeepsInvariant : Obligations.StepKeepsInvariant :=
  fun _ _ hs h => inv_of_stepRule (step_rule h) hs

/-- Settles O26: the transitions of each kind of step rule. -/
theorem phaseTransitions : Obligations.PhaseTransitions := by
  refine ⟨⟨rfl, rfl, rfl, rfl⟩, fun s t h => ?_, fun _ _ => rfl⟩
  rcases (step_rule h).phase_cases with ⟨hp, ht | ht, -⟩ | ⟨hp, ht | ⟨ht, -⟩, -⟩ | ⟨hp | hp, ht, -⟩
  · exact .inl ⟨hp, .inl ht⟩
  · exact .inl ⟨hp, .inr (.inl ht)⟩
  · exact .inr ⟨hp, .inl ht⟩
  · exact .inr ⟨hp, .inr (.inl ht)⟩
  · exact .inl ⟨hp, .inr (.inr ht)⟩
  · exact .inr ⟨hp, .inr (.inr ht)⟩

/-- Settles O27: no rule writes the program, and no rule of the engine the resolver's registers. -/
theorem programAndTableAreImmutable : Obligations.ProgramAndTableAreImmutable :=
  fun _ _ h => ⟨(step_rule h).keepsProgram, (step_rule h).keepsResolver⟩

/-- Settles O28: a step appends a cell, stores to the current cell, or leaves the tape alone. -/
theorem tapeGrowsOnlyByRight : Obligations.TapeGrowsOnlyByRight := by
  intro s t h
  rcases (step_rule h).tape_cases with
    ⟨hp, hf, hend, hmax, htape, htlen⟩ | ⟨hp, v, -, htape, htlen⟩ | ⟨htape, htlen⟩
  · have hread := State.readTape_congr (s := s.tapeAppend) htape htlen
    refine .inl ⟨hp, hf, hend, hmax, htlen, ?_, fun a ha => ?_⟩
    · rw [hread, State.readTape_tapeAppend_same]
    · rw [hread, State.readTape_tapeAppend_below ha]
  · refine .inr ⟨htlen, fun a ha => ?_, fun hp' => absurd (hp.symm.trans hp') nofun⟩
    rw [State.readTape_congr (s := s.writeTape s.cp v) htape htlen, State.readTape_writeTape_other _ _ _ _ ha]
  · have hread := State.readTape_congr htape htlen
    exact .inr ⟨htlen, fun a _ => hread a, fun _ => ⟨htlen, hread⟩⟩

/-- Settles O29: the cases of the two pointers, one register at a time. -/
theorem pointersMoveOnlyByTheirInstructions : Obligations.PointersMoveOnlyByTheirInstructions := by
  intro s t h
  constructor
  · rcases (step_rule h).cp_cases with hcp | ⟨hp, hf, hcp, -⟩ | hleft
    · exact .inl hcp
    · exact .inr (.inl ⟨hp, hf, hcp⟩)
    · exact .inr (.inr hleft)
  · rcases (step_rule h).ip_cases with hip | ⟨hp, -, hip⟩ | hjump
    · exact .inl hip
    · exact .inr (.inl ⟨hp, hip⟩)
    · exact .inr (.inr hjump)

/-- Settles O30: the step of a `.` is run for its one event; every other rule emits none that is output. -/
theorem historyIsAppendOnly : Obligations.HistoryIsAppendOnly := by
  intro s t h
  obtain ⟨es, hes, hlen, hout⟩ := (step_rule h).hist_cases
  refine ⟨⟨es, hes, hlen⟩, step_output_of_out h, fun hat => ?_⟩
  rw [State.output, hes, outputOf_append, hout hat, List.append_nil]
  rfl

/-- Settles O31: a step at a `,` takes the next unit, and no other step takes one. -/
theorem onlyInputConsumesUnits : Obligations.OnlyInputConsumesUnits := by
  intro s t h
  rw [step_eq_stepFrom] at h
  by_cases hat : AtInput s
  · exact .inl ⟨hat.1, hat.2, unit_of_stepFrom_atInput hat h, stepFrom_units_of_atInput hat h⟩
  · exact .inr ⟨hat, stepFrom_inq_of_not_atInput hat h⟩

/-- Settles O34: a step that takes no fault keeps the record. -/
theorem errorRecordWrittenOnlyByFault : Obligations.ErrorRecordWrittenOnlyByFault := by
  intro s t h hfault
  rcases (step_rule h).phase_cases with ⟨-, -, hrec⟩ | ⟨-, -, hrec⟩ | ⟨-, ht, -⟩
  · exact hrec
  · exact hrec
  · exact absurd ht hfault

/-- Settles O48: at the launch nothing is scanned, and the tape has its one cell. -/
theorem launchMeetsInvariant : Obligations.LaunchMeetsInvariant :=
  fun text debug _ input hmax => inv_launch text debug input hmax

/-- Settles O50: the invariant holds at the launch and every step keeps it; no step lowers `TLEN`. -/
theorem invariantAtEveryStepBoundary : Obligations.InvariantAtEveryStepBoundary :=
  fun text debug _ input hmax _ _ hrun =>
    ⟨run_keeps stepKeepsInvariant hrun (inv_launch text debug input hmax),
      fun _ h => tlen_le_of_stepRule (step_rule h)⟩

/-- Settles O52: away from a `,` the rules keep `INWAIT`. -/
theorem inwaitWrittenOnlyByInput : Obligations.InwaitWrittenOnlyByInput := by
  intro s t h hat
  rcases (step_rule h).inwait_cases with ⟨-, hin⟩ | ⟨hat', -⟩
  · exact hin
  · exact absurd hat' hat

/-- Settles O46: the text reads back, and the other elements are those of reset. -/
theorem launchHoldsProgramAndResetValues : Obligations.LaunchHoldsProgramAndResetValues :=
  ⟨fun text debug tapeMax input => ⟨State.launch_text text debug tapeMax input, rfl,
    State.launch_readProg text debug tapeMax input, rfl, rfl, rfl, rfl, rfl, rfl⟩, rfl⟩

/-- Settles O47: the reset state is the launch with nothing supplied. -/
theorem resetMeetsInvariant : Obligations.ResetMeetsInvariant :=
  inv_launch [] false { given := [], endless := none } (tapeMax := none) nofun

end Sys2Proof.StateElements
end

section
/-! PROOFS. The decoder and the encoder undo each other (spec/30_encoding.md R60 to R64), cell by cell and along a whole
text; and no step is refused (R65). -/

namespace Sys2Proof

/-! ### One cell -/

/-- R64: no inert value is one of the eight codes. -/
theorem decodeCell_of_inert {c : Byte} (hc : isInert c = true) : decodeCell c = .nop c := by
  rcases decodeCell_cases c with ⟨rfl, -⟩ | ⟨rfl, -⟩ | ⟨rfl, -⟩ | ⟨rfl, -⟩ | ⟨rfl, -⟩ | ⟨rfl, -⟩ | ⟨rfl, -⟩ |
    ⟨rfl, -⟩ | ⟨-, hd⟩
  iterate 8 · exact absurd hc (by decide)
  · exact hd

/-- R63, R64: every cell decodes to a well-formed instruction. -/
@[simp] theorem wellFormed_decodeCell (c : Byte) : (decodeCell c).wellFormed = true := by
  rcases decodeCell_cases c with ⟨-, hd⟩ | ⟨-, hd⟩ | ⟨-, hd⟩ | ⟨-, hd⟩ | ⟨-, hd⟩ | ⟨-, hd⟩ | ⟨-, hd⟩ | ⟨-, hd⟩ |
    ⟨hc, hd⟩ <;> rw [hd]
  iterate 8 · rfl
  · exact hc

/-- No cell is lost in decoding. -/
@[simp] theorem encodeCell_decodeCell (c : Byte) : encodeCell (decodeCell c) = c := by
  rcases decodeCell_cases c with ⟨hc, hd⟩ | ⟨hc, hd⟩ | ⟨hc, hd⟩ | ⟨hc, hd⟩ | ⟨hc, hd⟩ | ⟨hc, hd⟩ | ⟨hc, hd⟩ |
    ⟨hc, hd⟩ | ⟨-, hd⟩ <;> rw [hd]
  iterate 8 · exact hc.symm
  · rfl

/-- No well-formed instruction is lost in encoding. -/
theorem decodeCell_encodeCell {i : Instr} (hi : i.wellFormed = true) : decodeCell (encodeCell i) = i := by
  cases i with
  | nop c => exact decodeCell_of_inert hi
  | inc | input | dec | out | left | right | loops | loope => rfl

/-! ### A whole text -/

/-- R60, R68: a program text is one cell an instruction. -/
theorem assemble_eq_map (is : List Instr) : assemble is = is.map encodeCell :=
  List.map_eq_flatMap.symm

theorem disassemble_assemble {is : List Instr} (his : ∀ i ∈ is, i.wellFormed = true) :
    disassemble (assemble is) = is := by
  rw [assemble_eq_map, disassemble, List.map_map]
  exact (List.map_congr_left fun i hi => decodeCell_encodeCell (his i hi)).trans (List.map_id is)

theorem assemble_disassemble (text : List Byte) : assemble (disassemble text) = text := by
  rw [assemble_eq_map, disassemble, List.map_map]
  exact List.map_id'' encodeCell_decodeCell text

end Sys2Proof

namespace Sys2Proof.Machine

/-! ### Refusals -/

section Refusal

variable {s : State} {r : Refusal}

theorem State.withCur_ne_refused {k : Byte → Result} (hk : ∀ v, k v ≠ .refused r) : s.withCur k ≠ .refused r := by
  unfold State.withCur
  split
  · exact hk _
  · nofun

theorem execInFrom_ne_refused (env : Environment) : execInFrom env s ≠ .refused r := by
  unfold execInFrom
  split
  · nofun
  · split
    · exact State.withCur_ne_refused fun _ => nofun
    · nofun

theorem execRight_ne_refused : execRight s ≠ .refused r := by
  unfold execRight
  split <;> nofun

theorem execLeft_ne_refused : execLeft s ≠ .refused r := by
  unfold execLeft
  split <;> nofun

/-- R65: each of the nine meanings goes on or stops. -/
theorem exec_ne_refused (i : Instr) : exec i s ≠ .refused r := by
  cases i with
  | inc | dec | out | loops | loope => exact State.withCur_ne_refused fun _ => nofun
  | input => exact execInFrom_ne_refused _
  | left => exact execLeft_ne_refused
  | right => exact execRight_ne_refused
  | nop => exact nofun

/-- A step is refused only where its dispatch refuses. -/
theorem stepBy_ne_refused {meaning : Instr → State → Result} (h : ∀ i t, meaning i t ≠ .refused r) :
    stepBy meaning s ≠ .refused r := by
  cases hp : s.phase with
  | resolve => rw [stepBy_of_resolve meaning hp]; nofun
  | halt => rw [stepBy_of_halt meaning hp]; nofun
  | fault => rw [stepBy_of_fault meaning hp]; nofun
  | run =>
    by_cases hip : s.ip = s.plen
    · rw [stepBy_of_end meaning hp hip]; nofun
    · cases hf : s.fetch with
      | none => rw [stepBy_of_no_cell meaning hp hip hf]; nofun
      | some c => rw [stepBy_of_fetch meaning hp hf]; exact h _ _

end Refusal

end Sys2Proof.Machine
end

section
/-! PROOFS. When `Resolve(PROG)` is ok (spec/30_encoding.md R71, spec/40_bracket_resolver.md R85): the loop of R85 looks
at its stack's height only, and goes through to the end on the texts that close exactly that many brackets more than
they open. -/

namespace Sys2Proof.Machine

open Sys2Proof.Safety

/-! ### The two brackets are different characters -/

@[simp] theorem codeLoope_ne_codeLoops : codeLoope ≠ codeLoops := by decide

@[simp] theorem codeLoops_ne_codeLoope : codeLoops ≠ codeLoope := by decide

/-! ### The loop of R85, one character at a time -/

section Loop

variable {c : Byte} {rest : List Byte} {j : Nat} {stk : List Nat} {jt : JumpTable}

theorem resolveFrom_end : resolveFrom [] j [] jt = .ok jt := rfl

theorem resolveFrom_leftOver {b : Nat} : resolveFrom [] j (b :: stk) jt = .fail codeLoops b := rfl

theorem resolveFrom_opener :
    resolveFrom (codeLoops :: rest) j stk jt = resolveFrom rest (j + 1) (stk ++ [j]) jt := by
  simp [resolveFrom]

theorem resolveFrom_closer {i : Nat} :
    resolveFrom (codeLoope :: rest) j (stk ++ [i]) jt =
      resolveFrom rest (j + 1) stk (Assoc.set (Assoc.set jt i j) j i) := by
  simp [resolveFrom]

theorem resolveFrom_unmatchedCloser : resolveFrom (codeLoope :: rest) j [] jt = .fail codeLoope j := by
  simp [resolveFrom]

theorem resolveFrom_other (hopen : c ≠ codeLoops) (hclose : c ≠ codeLoope) :
    resolveFrom (c :: rest) j stk jt = resolveFrom rest (j + 1) stk jt := by
  simp [resolveFrom, hopen, hclose]

end Loop

end Sys2Proof.Machine

namespace Sys2Proof.Safety

open Sys2Proof.Machine

/-! ### Counting brackets from the front -/

@[simp] theorem openers_zero (text : List Byte) : openers text 0 = 0 := rfl

@[simp] theorem closers_zero (text : List Byte) : closers text 0 = 0 := rfl

@[simp] theorem openers_nil (n : Nat) : openers [] n = 0 := by simp [openers]

@[simp] theorem closers_nil (n : Nat) : closers [] n = 0 := by simp [closers]

theorem openers_cons (c : Byte) (rest : List Byte) (n : Nat) :
    openers (c :: rest) (n + 1) = openers rest n + if c = codeLoops then 1 else 0 := by
  simp [openers, List.count_cons]

theorem closers_cons (c : Byte) (rest : List Byte) (n : Nat) :
    closers (c :: rest) (n + 1) = closers rest n + if c = codeLoope then 1 else 0 := by
  simp [closers, List.count_cons]

/-! ### Texts that close what stands open before them -/

/-- After `k` unmatched openers the text closes each of them, with no closer too many on the way. -/
def ClosesOpen (k : Nat) (text : List Byte) : Prop :=
  (∀ n, closers text n ≤ k + openers text n) ∧ closers text text.length = k + openers text text.length

/-- R71: a well-formed text is one with nothing open before it. -/
theorem closesOpen_zero (text : List Byte) : ClosesOpen 0 text ↔ WellFormedText text := by
  simp only [ClosesOpen, WellFormedText, Nat.zero_add]

theorem closesOpen_nil (k : Nat) : ClosesOpen k [] ↔ k = 0 := by
  simp [ClosesOpen, eq_comm]

section Cons

variable (k : Nat) (rest : List Byte)

/-- The prefixes of a longer text are the empty one and those that begin with its first character. -/
theorem closesOpen_cons (c : Byte) :
    ClosesOpen k (c :: rest) ↔
      (∀ n, closers rest n + (if c = codeLoope then 1 else 0) ≤ k + (openers rest n + if c = codeLoops then 1 else 0)) ∧
      closers rest rest.length + (if c = codeLoope then 1 else 0) =
        k + (openers rest rest.length + if c = codeLoops then 1 else 0) := by
  rw [ClosesOpen, ← Nat.and_forall_add_one]
  simp [openers_cons, closers_cons]

theorem closesOpen_opener : ClosesOpen k (codeLoops :: rest) ↔ ClosesOpen (k + 1) rest := by
  rw [closesOpen_cons, ClosesOpen]
  simp [Nat.add_assoc, Nat.add_comm 1]

theorem closesOpen_closer : ClosesOpen (k + 1) (codeLoope :: rest) ↔ ClosesOpen k rest := by
  rw [closesOpen_cons, ClosesOpen]
  simp [Nat.add_right_comm k 1]

/-- A closer with nothing open is one too many. -/
theorem not_closesOpen_unmatchedCloser : ¬ ClosesOpen 0 (codeLoope :: rest) := by
  rw [closesOpen_cons]
  rintro ⟨hprefix, -⟩
  simpa using hprefix 0

theorem closesOpen_other {c : Byte} (hopen : c ≠ codeLoops) (hclose : c ≠ codeLoope) :
    ClosesOpen k (c :: rest) ↔ ClosesOpen k rest := by
  rw [closesOpen_cons, ClosesOpen]
  simp [hopen, hclose]

end Cons

/-- R85: the loop ends ok exactly on the texts that close what is on its stack; the position and the table that it has
built so far do not matter. -/
theorem resolveFrom_ok_iff (text : List Byte) (j : Nat) (stk : List Nat) (jt : JumpTable) :
    (∃ jt', resolveFrom text j stk jt = .ok jt') ↔ ClosesOpen stk.length text := by
  induction text generalizing j stk jt with
  | nil =>
    rw [closesOpen_nil]
    cases stk with
    | nil => simp [resolveFrom_end]
    | cons b above => simp [resolveFrom_leftOver]
  | cons c rest ih =>
    by_cases hopen : c = codeLoops
    · rw [hopen, resolveFrom_opener, ih, closesOpen_opener, List.length_append, List.length_singleton]
    · by_cases hclose : c = codeLoope
      · subst hclose
        rcases List.eq_nil_or_concat' stk with rfl | ⟨below, i, rfl⟩
        · simp [resolveFrom_unmatchedCloser, not_closesOpen_unmatchedCloser]
        · rw [resolveFrom_closer, ih, List.length_append, List.length_singleton, closesOpen_closer]
      · rw [resolveFrom_other hopen hclose, ih, closesOpen_other _ _ hopen hclose]

end Sys2Proof.Safety
end

section
/-! PROOFS. The statements of the encoding (spec/30_encoding.md). -/

namespace Sys2Proof.Encoding

open Sys2Proof.Machine Sys2Proof.Safety

/-- Settles O3: both directions are one cell at a time, each by the round trip of that cell. -/
theorem textAndInstructionsAgree : Obligations.TextAndInstructionsAgree :=
  ⟨fun is his => ⟨disassemble_assemble his, by rw [assemble_eq_map, List.length_map]⟩,
    fun text => ⟨assemble_disassemble text, List.forall_mem_map.2 fun c _ => wellFormed_decodeCell c,
      List.length_map _⟩⟩

/-- Settles O42: the loop of R85 starts with nothing open. -/
theorem resolveSucceedsIffWellFormed : Obligations.ResolveSucceedsIffWellFormed :=
  fun text => (resolveFrom_ok_iff text 0 [] []).trans (closesOpen_zero text)

/-- Settles O1: the eight codes by evaluation, the inert values and the way back by the cases of a cell. -/
theorem decoderClassifiesEveryCell : Obligations.DecoderClassifiesEveryCell :=
  ⟨by decide, fun _ => decodeCell_of_inert, fun c => ⟨wellFormed_decodeCell c, encodeCell_decodeCell c⟩⟩

/-- Settles O2: the decoder reads the one cell of the encoding. -/
theorem decodeOfEncodeIsInstruction : Obligations.DecodeOfEncodeIsInstruction :=
  fun _ rest hi => congrArg (fun j => Except.ok (j, rest)) (decodeCell_encodeCell hi)

/-- Settles O8: no meaning is a refusal, and a step refuses only through its dispatch. -/
theorem nothingIsRefused : Obligations.NothingIsRefused :=
  ⟨fun i _ _ => exec_ne_refused i, fun _ _ => stepBy_ne_refused fun i _ => exec_ne_refused i⟩

end Sys2Proof.Encoding
end

section
/-! PROOFS. The resolver phase computes `Resolve(PROG)` (spec/40_bracket_resolver.md R77, R78, R85): what the loop of R85
still has to do in a `RESOLVE` state is kept by every scan step that goes on and is the result where the scan ends. -/

namespace Sys2Proof.Machine

open Sys2Proof.Safety

/-! ### One scan step is one turn of the loop -/

/-- The value of the loop of R85 from where the resolver of `s` stands. -/
def State.resolved (s : State) : ResolveResult := resolveFrom (s.text.drop s.rs) s.rs s.stk s.jt

/-- `s` after the resolver has written its three registers. -/
def State.scannedTo (s : State) (rs : Nat) (stk : List Nat) (jt : JumpTable) : State :=
  { s with rs := rs, stk := stk, jt := jt }

theorem State.scannedTo_text (s : State) (rs : Nat) (stk : List Nat) (jt : JumpTable) :
    (s.scannedTo rs stk jt).text = s.text := rfl

/-- R83, R143: the program report is one event more in debug mode, and nothing else. -/
theorem State.traceProgram_eq (s : State) :
    s.traceProgram = { s with hist := if s.debug then s.hist ++ [.traceProgram s.text] else s.hist } := by
  unfold State.traceProgram
  split <;> rfl

theorem State.resolved_launch (text : List Byte) (debug : Bool) (tapeMax : Option Nat) (input : InputQueue) :
    (State.launch text debug tapeMax input).resolved = resolveText text :=
  congrArg resolveText (State.launch_text text debug tapeMax input)

/-- The character at the scan position is the first of those still to come. -/
theorem State.text_drop_of_readProg {s : State} {p : Nat} {c : Byte} (hc : s.readProg p = some c) :
    s.text.drop p = c :: s.text.drop (p + 1) := by
  rw [List.drop_eq_getElem?_toList_append, State.text_getElem?, hc]
  rfl

theorem State.text_drop_of_end {s : State} {p : Nat} (hend : s.readProg p = none) : s.text.drop p = [] := by
  rw [← State.text_getElem?, List.getElem?_eq_none_iff] at hend
  exact List.drop_eq_nil_of_le hend

/-- R78, R85: a scan step goes on with the same value still to compute, or it ends the scan with that value. -/
theorem ScanRule.resolved_cases {s t : State} (r : ScanRule s t) :
    (s.rs < s.plen ∧ t.resolved = s.resolved ∧ ∃ stk jt, t = s.scannedTo (s.rs + 1) stk jt) ∨
    (s.plen ≤ s.rs ∧ s.resolved = .ok s.jt ∧ s.stk = [] ∧ t = s.traceProgram.setPhase .run) ∨
    (∃ ch pos, s.resolved = .fail ch pos ∧ t = s.raise .unmatchedBracket ch pos) := by
  cases r with
  | opener hc =>
    refine .inl ⟨State.lt_of_readProg hc, ?_, _, _, rfl⟩
    rw [State.resolved, State.resolved, State.text_drop_of_readProg hc, resolveFrom_opener]
    rfl
  | closer hc htop =>
    obtain ⟨below, hstk⟩ := List.getLast?_eq_some_iff.1 htop
    refine .inl ⟨State.lt_of_readProg hc, ?_, _, _, rfl⟩
    rw [State.resolved, State.resolved, State.text_drop_of_readProg hc, hstk, resolveFrom_closer,
      List.dropLast_concat]
    rfl
  | unmatchedCloser hc hstk =>
    refine .inr (.inr ⟨_, _, ?_, rfl⟩)
    rw [State.resolved, State.text_drop_of_readProg hc, hstk, resolveFrom_unmatchedCloser]
  | other hc hopen hclose =>
    refine .inl ⟨State.lt_of_readProg hc, ?_, _, _, rfl⟩
    rw [State.resolved, State.resolved, State.text_drop_of_readProg hc, resolveFrom_other hopen hclose]
    rfl
  | success hend hstk =>
    refine .inr (.inl ⟨State.readProg_eq_none.1 hend, ?_, hstk, rfl⟩)
    rw [State.resolved, State.text_drop_of_end hend, hstk, resolveFrom_end]
  | leftOver hend hbot =>
    obtain ⟨above, hstk⟩ := List.head?_eq_some_iff.1 hbot
    refine .inr (.inr ⟨_, _, ?_, rfl⟩)
    rw [State.resolved, State.text_drop_of_end hend, hstk, resolveFrom_leftOver]

/-! ### The whole phase -/

/-- R77: `k` characters before the end, `k + 1` steps finish the phase with the loop's table, or at most as many report
the loop's failure; nothing but the resolver's registers is written on the way. -/
theorem run_resolve {s : State} {k : Nat} (hp : s.phase = .resolve) (hk : s.rs + k = s.plen) :
    (∃ jt, s.resolved = .ok jt ∧
      Host.Core.run Sys2Proof.core (k + 1) s = .next ((s.scannedTo s.plen [] jt).traceProgram.setPhase .run)) ∨
    (∃ ch pos n rs stk jt, s.resolved = .fail ch pos ∧ n ≤ k ∧
      Host.Core.run Sys2Proof.core (n + 1) s = .next ((s.scannedTo rs stk jt).raise .unmatchedBracket ch pos)) := by
  have hstep : step s = .next s.scan := stepBy_of_resolve exec hp
  induction k generalizing s with
  | zero =>
    rcases s.scan_rule.resolved_cases with ⟨hlt, -⟩ | ⟨-, hok, hstk, hscan⟩ | ⟨ch, pos, hfail, hscan⟩
    · omega
    · refine .inl ⟨s.jt, hok, ?_⟩
      rw [run_succ 0 hstep, hscan, ← hk, ← hstk]
      rfl
    · exact .inr ⟨ch, pos, 0, s.rs, s.stk, s.jt, hfail, Nat.le_refl 0, by rw [run_succ 0 hstep, hscan]; rfl⟩
  | succ k ih =>
    rcases s.scan_rule.resolved_cases with ⟨-, hres, stk, jt, hscan⟩ | ⟨hend, -⟩ | ⟨ch, pos, hfail, hscan⟩
    · rw [hscan] at hstep hres
      have hp' : (s.scannedTo (s.rs + 1) stk jt).phase = .resolve := hp
      have hk' : s.rs + 1 + k = s.plen := by omega
      rcases ih hp' hk' (stepBy_of_resolve exec hp') with
        ⟨jt', hok, hrun⟩ | ⟨ch, pos, n, rs, stk', jt', hfail, hn, hrun⟩
      · exact .inl ⟨jt', hres ▸ hok, (run_succ _ hstep).trans hrun⟩
      · exact .inr ⟨ch, pos, n + 1, rs, stk', jt', hres ▸ hfail, Nat.succ_le_succ hn,
          (run_succ _ hstep).trans hrun⟩
    · omega
    · exact .inr ⟨ch, pos, 0, s.rs, s.stk, s.jt, hfail, Nat.zero_le _, by rw [run_succ 0 hstep, hscan]; rfl⟩

/-- R83: the state in which a successful scan of a launch ends. -/
theorem State.scannedTo_end_launch (text : List Byte) (debug : Bool) (tapeMax : Option Nat) (input : InputQueue)
    (jt : JumpTable) :
    ((State.launch text debug tapeMax input).scannedTo text.length [] jt).traceProgram.setPhase .run =
      { State.launch text debug tapeMax input with
        phase := .run, rs := text.length, jt := jt, hist := if debug then [.traceProgram text] else [] } := by
  rw [State.traceProgram_eq, State.scannedTo_text, State.launch_text]
  rfl

end Sys2Proof.Machine
end

section
/-! PROOFS. What the loop of R85 has found out about the text read so far (spec/40_bracket_resolver.md R85): its stack
holds as many positions as brackets stand open, and the bottom one is the leftmost opener that nothing has closed. -/

namespace Sys2Proof.Safety

open Sys2Proof.Machine

/-! ### Counting brackets up to a position -/

theorem openers_succ {text : List Byte} {j : Nat} {c : Byte} (hc : text[j]? = some c) :
    openers text (j + 1) = openers text j + if c = codeLoops then 1 else 0 := by
  simp [openers, List.take_add_one, hc, List.count_append, List.count_singleton]

theorem closers_succ {text : List Byte} {j : Nat} {c : Byte} (hc : text[j]? = some c) :
    closers text (j + 1) = closers text j + if c = codeLoope then 1 else 0 := by
  simp [closers, List.take_add_one, hc, List.count_append, List.count_singleton]

/-- Counting past the end of the text counts no more. -/
theorem openers_min (text : List Byte) (n : Nat) : openers text (min n text.length) = openers text n := by
  rw [openers, ← List.take_eq_take_min, openers]

theorem closers_min (text : List Byte) (n : Nat) : closers text (min n text.length) = closers text n := by
  rw [closers, ← List.take_eq_take_min, closers]

/-! ### The loop's stack -/

/-- Position `b` holds the leftmost `[` of the first `j` characters that nothing among them closes. -/
structure LeftmostOpen (text : List Byte) (j b : Nat) : Prop where
  opener : text[b]? = some codeLoops
  before : closers text b = openers text b
  after : ∀ n, b < n → n ≤ j → closers text n < openers text n

/-- What the loop of R85 knows when it has read the first `j` characters and its stack is `stk`. -/
structure ScannedText (text : List Byte) (j : Nat) (stk : List Nat) : Prop where
  height : openers text j = closers text j + stk.length
  covered : ∀ n, n ≤ j → closers text n ≤ openers text n
  bottom : ∀ b, stk.head? = some b → LeftmostOpen text j b

theorem scannedText_zero (text : List Byte) : ScannedText text 0 [] where
  height := rfl
  covered n hn := by rw [Nat.le_zero.1 hn, closers_zero, openers_zero]
  bottom b hb := absurd hb nofun

section Scan

variable {text : List Byte} {j : Nat} {stk stk' : List Nat}

/-- One character more: the stack's height follows the brackets, and its bottom stays or is an opener just pushed on the
empty stack. -/
theorem ScannedText.succ (h : ScannedText text j stk)
    (hheight : openers text (j + 1) = closers text (j + 1) + stk'.length)
    (hbottom : ∀ b, stk'.head? = some b → stk.head? = some b ∨ (b = j ∧ stk = [] ∧ text[j]? = some codeLoops)) :
    ScannedText text (j + 1) stk' where
  height := hheight
  covered n hn := by
    rcases Nat.le_add_one_iff.1 hn with hn | rfl
    · exact h.covered n hn
    · exact hheight ▸ Nat.le_add_right _ _
  bottom b hb := by
    have hopen : closers text (j + 1) < openers text (j + 1) := by
      have : 0 < stk'.length := List.length_pos_of_mem (List.mem_of_mem_head? hb)
      omega
    rcases hbottom b hb with hold | ⟨rfl, rfl, hc⟩
    · obtain ⟨opener, before, after⟩ := h.bottom b hold
      refine ⟨opener, before, fun n hbn hn => ?_⟩
      rcases Nat.le_add_one_iff.1 hn with hn | rfl
      · exact after n hbn hn
      · exact hopen
    · refine ⟨hc, h.height.symm, fun n hbn hn => ?_⟩
      obtain rfl := Nat.le_antisymm hn hbn
      exact hopen

theorem ScannedText.opener (h : ScannedText text j stk) (hc : text[j]? = some codeLoops) :
    ScannedText text (j + 1) (stk ++ [j]) := by
  refine h.succ ?_ fun b hb => ?_
  · simp [openers_succ hc, closers_succ hc, h.height, Nat.add_assoc]
  · cases stk with
    | nil => exact .inr ⟨(Option.some.inj hb).symm, rfl, hc⟩
    | cons a above => exact .inl hb

theorem ScannedText.closer {below : List Nat} {i : Nat} (h : ScannedText text j (below ++ [i]))
    (hc : text[j]? = some codeLoope) : ScannedText text (j + 1) below := by
  refine h.succ ?_ fun b hb => .inl (by rw [List.head?_append, hb]; rfl)
  simp [openers_succ hc, closers_succ hc, h.height, Nat.add_assoc, Nat.add_comm 1]

theorem ScannedText.other {c : Byte} (h : ScannedText text j stk) (hc : text[j]? = some c) (hopen : c ≠ codeLoops)
    (hclose : c ≠ codeLoope) : ScannedText text (j + 1) stk := by
  refine h.succ ?_ fun b hb => .inl hb
  simp [openers_succ hc, closers_succ hc, h.height, hopen, hclose]

/-- At the end of the text, what holds up to each position read holds up to every position. -/
theorem ScannedText.covered_all (h : ScannedText text j stk) (hend : text.length ≤ j) (n : Nat) :
    closers text n ≤ openers text n := by
  rw [← closers_min, ← openers_min]
  exact h.covered _ (Nat.le_trans (Nat.min_le_right _ _) hend)

/-- At the end of the text, nothing closes the leftmost open bracket. -/
theorem LeftmostOpen.after_all {b : Nat} (h : LeftmostOpen text j b) (hend : text.length ≤ j) (n : Nat) (hn : b < n) :
    closers text n < openers text n := by
  have hb : b < text.length := (List.getElem?_eq_some_iff.1 h.opener).1
  rw [← closers_min, ← openers_min]
  exact h.after _ (Nat.lt_min.2 ⟨hn, hb⟩) (Nat.le_trans (Nat.min_le_right _ _) hend)

/-- R85: the loop fails at a closer with nothing open, or at the end with the bottom of its stack. -/
theorem ScannedText.of_fail {rest : List Byte} {jt : JumpTable} {ch : Byte} {pos : Nat}
    (h : ScannedText text j stk) (hrest : text.drop j = rest) (hfail : resolveFrom rest j stk jt = .fail ch pos) :
    (ch = codeLoope ∧ text[pos]? = some codeLoope ∧ ScannedText text pos []) ∨
    (ch = codeLoops ∧ ∃ j' above, text.length ≤ j' ∧ ScannedText text j' (pos :: above)) := by
  induction rest generalizing j stk jt with
  | nil =>
    cases stk with
    | nil => exact absurd hfail nofun
    | cons b above =>
      obtain ⟨rfl, rfl⟩ := ResolveResult.fail.inj hfail
      exact .inr ⟨rfl, j, above, List.drop_eq_nil_iff.1 hrest, h⟩
  | cons c rest ih =>
    have hc : text[j]? = some c := by rw [← List.head?_drop, hrest]; rfl
    have hrest' : text.drop (j + 1) = rest := by rw [← List.tail_drop, hrest]; rfl
    by_cases hopen : c = codeLoops
    · subst hopen
      exact ih (h.opener hc) hrest' (resolveFrom_opener ▸ hfail)
    · by_cases hclose : c = codeLoope
      · subst hclose
        rcases List.eq_nil_or_concat' stk with rfl | ⟨below, i, rfl⟩
        · rw [resolveFrom_unmatchedCloser] at hfail
          obtain ⟨rfl, rfl⟩ := ResolveResult.fail.inj hfail
          exact .inl ⟨rfl, hc, h⟩
        · exact ih (h.closer hc) hrest' (resolveFrom_closer ▸ hfail)
      · exact ih (h.other hc hopen hclose) hrest' (resolveFrom_other hopen hclose ▸ hfail)

end Scan

end Sys2Proof.Safety
end

section
/-! PROOFS. The statements of the Bracket Resolver (spec/40_bracket_resolver.md). -/

namespace Sys2Proof.Resolver

open Sys2Proof.Machine Sys2Proof.Safety

/-- Settles O41: the phase started at a launch is the whole loop of R85. -/
theorem resolverComputesResolve : Obligations.ResolverComputesResolve := by
  intro text debug tapeMax input
  rw [← State.resolved_launch text debug tapeMax input]
  rcases run_resolve (s := State.launch text debug tapeMax input) rfl (Nat.zero_add text.length) with
    ⟨jt, hok, hrun⟩ | ⟨ch, pos, n, rs, stk, jt, hfail, hn, hrun⟩
  · simp only [hok]
    exact hrun.trans (congrArg _ (State.scannedTo_end_launch text debug tapeMax input jt))
  · simp only [hfail]
    exact ⟨n + 1, _, Nat.succ_pos n, Nat.succ_le_succ hn, hrun, rfl, rfl, rfl, rfl, rfl, rfl, rfl, rfl, rfl, rfl⟩

/-- Settles O43: the two ways in which the loop fails, read off what it knows of the text. -/
theorem resolveReportsFirstUnmatched : Obligations.ResolveReportsFirstUnmatched := by
  intro text ch pos hfail
  rcases (scannedText_zero text).of_fail List.drop_zero hfail with ⟨hch, hc, h⟩ | ⟨hch, j, above, hend, h⟩
  · exact .inl ⟨hch, hc, h.height.symm, h.covered⟩
  · have hpos := h.bottom pos rfl
    exact .inr ⟨hch, hpos.opener, h.covered_all hend, hpos.before, hpos.after_all hend⟩

/-- The state that O41 names for a successful scan meets the invariant, so its table is sound and complete. -/
theorem tableSound_of_resolveText {text : List Byte} {jt : JumpTable} (h : resolveText text = .ok jt) :
    ∃ s : State, s.jt = jt ∧ (∀ p, s.readProg p = text[p]?) ∧ TableSound s text.length [] := by
  have hrun := resolverComputesResolve text false none ⟨[], none⟩
  simp only [h] at hrun
  have hinv := (StateElements.invariantAtEveryStepBoundary text false none _ nofun _ _ hrun).1
  have htable : TableSound _ text.length [] := hinv.tableComplete (.inl rfl)
  refine ⟨_, ?_, ?_, htable⟩
  · rfl
  · exact State.launch_readProg text false none ⟨[], none⟩

/-- Settles O44: the clauses of a sound and complete table, with each position's character read from the text. -/
theorem resolvedTableIsInvolution : Obligations.ResolvedTableIsInvolution := by
  intro text jt hok
  obtain ⟨s, rfl, hread, htable⟩ := tableSound_of_resolveText hok
  have hopener : ∀ p, IsOpener s p ↔ text[p]? = some codeLoops := fun p => by rw [IsOpener, hread]
  have hcloser : ∀ p, IsCloser s p ↔ text[p]? = some codeLoope := fun p => by rw [IsCloser, hread]
  refine ⟨fun p => ?_, fun p q hpq => ?_, htable.nesting⟩
  · rw [htable.domain p, hopener, hcloser]
    constructor
    · rintro ⟨-, hb, -⟩
      exact hb
    · intro hb
      have hlt : p < text.length := by
        rcases hb with hb | hb <;> exact (List.getElem?_eq_some_iff.1 hb).1
      exact ⟨hlt, hb, List.not_mem_nil⟩
  · obtain ⟨hqp, hkind⟩ := htable.pairing p q hpq
    simp only [hopener, hcloser] at hkind
    rcases hkind with ⟨hp, hq, hlt⟩ | ⟨hp, hq, hlt⟩
    · exact ⟨hqp, hlt.ne, fun _ => ⟨hq, hlt⟩, fun hp' => by simp [hp] at hp'⟩
    · exact ⟨hqp, hlt.ne', fun hp' => by simp [hp] at hp', fun _ => ⟨hq, hlt⟩⟩

/-- Settles O38: R79 at an opener, R82 at a character that is no bracket. -/
theorem scanOpenerPushesPosition : Obligations.ScanOpenerPushesPosition := by
  intro s c hp hc
  rw [step, stepBy_of_resolve exec hp]
  refine ⟨fun hopen => ?_, fun hopen hclose => ?_⟩
  · rw [State.scan_of_opener (hopen ▸ hc)]
    rfl
  · rw [State.scan_of_other hc hopen hclose]
    rfl

/-- Settles O39: R80, and the invariant's clause on the stack. -/
theorem scanCloserPairsInnermost : Obligations.ScanCloserPairsInnermost := by
  intro s below i hp hc hstk
  have htop : s.stk.getLast? = some i := by rw [hstk, List.getLast?_concat]
  have hscan : step s = .next (s.scanCloser i) := by
    rw [step, stepBy_of_resolve exec hp, State.scan_of_closer hc htop]
  have hjt : (s.scanCloser i).jt = Assoc.set (Assoc.set s.jt i s.rs) s.rs i := rfl
  refine ⟨_, hscan, ?_, rfl, fun hi => ?_, ?_, fun p hpi hprs => ?_, rfl, fun hinv => ?_⟩
  · exact (congrArg List.dropLast hstk).trans List.dropLast_concat
  · rw [hjt, Assoc.get_set_other _ _ _ _ hi, Assoc.get_set_same]
  · rw [hjt, Assoc.get_set_same]
  · rw [hjt, Assoc.get_set_other _ _ _ _ hprs, Assoc.get_set_other _ _ _ _ hpi]
  · exact ((hinv.resolving hp).stackOpeners i (hstk ▸ List.mem_concat_self)).1

/-- Settles O40: R81 at a closer with nothing open, R84 at the end with an opener left. -/
theorem scanFailsOnUnmatchedBracket : Obligations.ScanFailsOnUnmatchedBracket := by
  refine ⟨fun s hp hc hstk => ?_, fun s b above hp hend hstk => ?_⟩
  · rw [step, stepBy_of_resolve exec hp, State.scan_of_unmatched_closer hc hstk]
    rfl
  · rw [step, stepBy_of_resolve exec hp,
      State.scan_of_left_over (State.readProg_eq_none.2 hend) (hstk ▸ List.head?_cons)]
    rfl

end Sys2Proof.Resolver
end

section
/-! PROOFS. The step of the Execution Engine (spec/41_execution_loop.md): when it is traced, that it is never without an
answer but at a `,`, which step halts, and where it repeats itself. -/

namespace Sys2Proof

/-- The host reads one cell from a word of its table, and it always decodes (R60, R65). -/
theorem decodeTableWord_eq (nbits w : Nat) :
    decodeTableWord nbits w = some (decodeCell (BitVec.ofNat 8 (w % 2 ^ nbits))) := rfl

/-- R63: only `CODE(,)` decodes to `IN`. -/
theorem eq_codeIn_of_decodeCell {c : Byte} (h : decodeCell c = .input) : c = codeIn := by
  rw [← encodeCell_decodeCell c, h, encodeCell]

end Sys2Proof

namespace Sys2Proof.Machine

open Sys2Proof.Safety

/-! ### The trace event of a step -/

section Trace

variable {s : State} {c : Byte}

/-- R144: one of the eight instructions, not a retried `IN`, is reported in debug mode. -/
theorem State.traceStep_of_traced (h : (decodeCell c).recognised = true ∧ s.debug = true ∧ s.inwait = false) :
    s.traceStep c = s.emit (.traceStep s.tapeCells s.cp c (branchOf (decodeCell c) s)) := by
  obtain ⟨hrec, hdebug, hwait⟩ := h
  simp [State.traceStep, hrec, hdebug, hwait]

/-- R144: no other step is reported. -/
theorem State.traceStep_of_untraced (h : ¬ ((decodeCell c).recognised = true ∧ s.debug = true ∧ s.inwait = false)) :
    s.traceStep c = s := by
  rw [State.traceStep, if_neg]
  simpa [and_assoc] using h

/-- R93, R144: an inert character is never reported. -/
theorem State.traceStep_of_inert (hc : isInert c = true) : s.traceStep c = s :=
  State.traceStep_of_untraced fun h => by simp [decodeCell_recognised, hc] at h

end Trace

/-! ### The step at a fetched cell -/

section Fetch

variable {s : State} {c : Byte}

theorem step_of_fetch (hp : s.phase = .run) (hf : s.fetch = some c) :
    step s = exec (decodeCell c) (s.traceStep c) :=
  stepBy_of_fetch exec hp hf

theorem step_of_fetch_debug_off (hp : s.phase = .run) (hf : s.fetch = some c) (hdebug : s.debug = false) :
    step s = exec (decodeCell c) s := by
  rw [step_of_fetch hp hf, State.traceStep_of_debug_off s c hdebug]

/-- The placed cell is the one that is fetched next. -/
theorem State.placeCell_fetch (s : State) (c : Byte) : (s.placeCell c).fetch = some c := by
  have hlt : (s.placeCell c).ip < (s.placeCell c).plen := Nat.lt_of_succ_le (Nat.le_max_right _ _)
  rw [State.fetch, State.readProg_of_lt hlt]
  exact congrArg some (Memory.read_write_same s.prog s.ip c)

end Fetch

/-! ### The halt -/

/-- R96: only the step at the end of the program halts. -/
theorem StepRule.at_end_of_halt {env : Environment} {s t : State} (h : StepRule env s t) (ht : t.phase = .halt) :
    s.phase = .run ∧ s.ip = s.plen := by
  cases h with
  | halt hp hip => exact ⟨hp, hip⟩
  | scan hp r =>
    rcases r.goes_on_or_faults hp with ⟨hgo | hgo, -⟩ | ⟨hfault, -⟩
    · exact absurd (ht.symm.trans hgo) nofun
    · exact absurd (ht.symm.trans hgo) nofun
    · exact absurd (ht.symm.trans hfault) nofun
  | engine hp _ r =>
    rcases r.goes_on_or_faults with ⟨hgo, -⟩ | ⟨hfault, -⟩
    · rw [State.traceStep_phase, hp] at hgo
      exact absurd (ht.symm.trans hgo) nofun
    · exact absurd (ht.symm.trans hfault) nofun

/-! ### Progress -/

section Progress

variable {env : Environment} {s : State}

/-- Inside the tape an operation on the current cell goes on. -/
theorem State.withCur_progress {k : Byte → Result} (hcp : s.cp < s.tlen) (hk : ∀ v, ∃ t, k v = .next t) :
    ∃ t, s.withCur k = .next t := by
  rw [State.withCur_of_cur k (State.readTape_of_lt hcp)]
  exact hk _

/-- R105: `LEFT` moves or takes its fault. -/
theorem execLeft_progress : ∃ t, execLeft s = .next t := by
  unfold execLeft
  split <;> exact ⟨_, rfl⟩

/-- R104, R108: `RIGHT` moves or takes its fault. -/
theorem execRight_progress : ∃ t, execRight s = .next t := by
  unfold execRight
  split <;> exact ⟨_, rfl⟩

/-- R117, R122: inside the tape `IN` takes the next unit, or waits where there is none. -/
theorem execInFrom_progress (hcp : s.cp < s.tlen) :
    (∃ t, execInFrom env s = .next t) ∨
    (execInFrom env s = .fault .inputWait ∧ unitFrom env s.inq 0 = none) := by
  cases hu : unitFrom env s.inq 0 with
  | none => exact .inr ⟨execInFrom_of_no_unit hu, rfl⟩
  | some u =>
    left
    cases hv : validValue u with
    | none =>
      obtain ⟨q, -, h⟩ := execInFrom_of_invalid hu hv
      exact ⟨_, h⟩
    | some v =>
      obtain ⟨q, -, h⟩ := execInFrom_of_valid hu hv
      rw [h]
      exact State.withCur_progress (s := s.setInq q) hcp fun _ => ⟨_, rfl⟩

/-- R99: inside the tape every instruction has a next state, but for an `IN` that waits. -/
theorem execFrom_progress (i : Instr) (hcp : s.cp < s.tlen) :
    (∃ t, execFrom env i s = .next t) ∨
    (i = .input ∧ execFrom env i s = .fault .inputWait ∧ unitFrom env s.inq 0 = none) := by
  cases i with
  | inc | dec | out | loops | loope => exact .inl (State.withCur_progress hcp fun _ => ⟨_, rfl⟩)
  | input => exact (execInFrom_progress hcp).imp_right fun h => ⟨rfl, h⟩
  | left => exact .inl execLeft_progress
  | right => exact .inl execRight_progress
  | nop => exact .inl ⟨_, rfl⟩

/-- R12, R99: within the invariant a step of a run that has not ended goes on, or waits at a `,`. -/
theorem stepFrom_progress (hs : Inv s) (hrun : ¬ RunEnded s) :
    (∃ t, stepFrom env s = .next t) ∨
    (stepFrom env s = .fault .inputWait ∧ AtInput s ∧ unitFrom env s.inq 0 = none) := by
  unfold stepFrom
  cases hp : s.phase with
  | halt => exact absurd (.inl hp) hrun
  | fault => exact absurd (.inr hp) hrun
  | resolve => exact .inl ⟨_, stepBy_of_resolve _ hp⟩
  | run =>
    rcases (hs.ipInRange hp).eq_or_lt with hend | hlt
    · exact .inl ⟨_, stepBy_of_end _ hp hend⟩
    · have hf : s.fetch = some (s.prog.read s.ip) := State.readProg_of_lt hlt
      have hcp : (s.traceStep (s.prog.read s.ip)).cp < (s.traceStep (s.prog.read s.ip)).tlen := by
        simpa using hs.pointerInTape
      rw [stepBy_of_fetch _ hp hf]
      refine (execFrom_progress _ hcp).imp_right fun ⟨hin, hwait, hnone⟩ => ⟨hwait, ⟨hp, ?_⟩, by simpa using hnone⟩
      rw [hf, eq_codeIn_of_decodeCell hin]

end Progress

/-! ### Steps that change nothing -/

/-- A step that gives its own state is repeated for ever. -/
theorem run_of_step_self {s : State} (h : step s = .next s) (n : Nat) :
    Host.Core.run Sys2Proof.core n s = .next s := by
  induction n with
  | zero => rfl
  | succ n ih => rw [run_succ n h, ih]

/-- R97, R111: a taken `]` whose partner stands just before it comes back to itself. -/
theorem execLoope_empty_loop {s : State} {v : Byte} {q : Nat} (hcur : s.cur = some v) (hv : v ≠ 0)
    (hq : Assoc.get s.jt s.ip = some q) (hpartner : q + 1 = s.ip) : execLoope s = .next s := by
  have htaken : loopeTaken v = true := by simpa [loopeTaken, isZero] using hv
  have hback : (s.setIp q).advance = s := by rw [State.setIp, State.advance, hpartner]
  rw [execLoope, State.withCur_of_cur _ hcur, State.jumpIf_eq, htaken, if_pos rfl, State.jumpEntry_of_get hq, hback]

end Sys2Proof.Machine
end

section
/-! PROOFS. The statements of the execution loop (spec/41_execution_loop.md). -/

namespace Sys2Proof.ExecutionLoop

open Sys2Proof.Machine Sys2Proof.Safety

/-- Settles O51: the progress of every environment, in the open one. -/
theorem progressUnlessInputWait : Obligations.ProgressUnlessInputWait := by
  intro s hs hrun
  rw [step_eq_stepFrom]
  exact (stepFrom_progress hs hrun).imp_right fun ⟨hwait, ⟨hp, hf⟩, hnone⟩ => ⟨hwait, hp, hf, hnone⟩

/-- Settles O25: the step of the `]` gives the same state. -/
theorem emptyLoopRunsForEver : Obligations.EmptyLoopRunsForEver := by
  rintro n s v hp hdebug hf hcur hv ⟨q, hq, hpartner⟩
  refine run_of_step_self ?_ n
  rw [step_of_fetch_debug_off hp hf hdebug]
  exact execLoope_empty_loop hcur hv hq hpartner

/-- Settles O4: the fetched cell runs on the traced state, with and without the event. -/
theorem stepRunsDecodedInstruction : Obligations.StepRunsDecodedInstruction := by
  rintro s c _ hp hf rfl
  rw [step_of_fetch hp hf]
  refine ⟨fun h => ?_, fun h => ?_⟩
  · rw [State.traceStep_of_traced h]
    rfl
  · rw [State.traceStep_of_untraced h]

/-- Settles O5: the halt, the end it leads to, and that no other rule leads there. -/
theorem haltOnlyAtEndOfProgram : Obligations.HaltOnlyAtEndOfProgram := by
  refine ⟨fun s hp hip => ⟨stepBy_of_end exec hp hip, fun t h => ?_⟩, fun s t h => (step_rule h).at_end_of_halt⟩
  rw [step, stepBy_of_halt exec rfl] at h
  cases h

/-- Settles O7: the placed cell is fetched and decoded. -/
theorem placedWordRunsNext : Obligations.PlacedWordRunsNext := by
  intro s nbits w i hdebug hi
  rw [decodeTableWord_eq] at hi
  obtain rfl := Option.some.inj hi
  exact step_of_fetch_debug_off rfl (State.placeCell_fetch s _) hdebug

/-- Settles O9: an inert cell is not traced, and `NOP` only advances. -/
theorem nopOnlyAdvances : Obligations.NopOnlyAdvances := by
  refine fun s c => ⟨rfl, fun hp hf hc => ?_⟩
  rw [step_of_fetch hp hf, State.traceStep_of_inert hc, decodeCell_of_inert hc]
  rfl

end Sys2Proof.ExecutionLoop
end

section
/-! PROOFS. Instructions that compute on the current cell (spec/42_cell_arithmetic.md R100 to R102): one frame for all
of them, and sequences of them as the composition of what each does to the cell's value. -/

namespace Sys2Proof.Machine

open Sys2Proof.Safety

/-! ### The frame -/

/-- `t` is `s` with `w` in the current cell and `IP` moved by `n`; everything else is as it was. -/
structure CellBecomes (w : Byte) (n : Nat) (s t : State) : Prop where
  cell : t.readTape s.cp = some w
  others : ∀ b, b ≠ s.cp → t.readTape b = s.readTape b
  rest : ∃ m, t = { s with tape := m, ip := s.ip + n }

section Frame

variable {s t u : State} {v w : Byte} {m n : Nat}

theorem CellBecomes.frame (h : CellBecomes w n s t) :
    KeepsTapeExcept s.cp s t ∧ t.ip = s.ip + n ∧ t.cp = s.cp ∧ t.phase = s.phase ∧ t.hist = s.hist ∧
    KeepsProgram s t ∧ KeepsResolver s t ∧ KeepsInput s t ∧ KeepsErrorRecord s t := by
  obtain ⟨-, hothers, _, rfl⟩ := h
  exact ⟨⟨rfl, hothers⟩, rfl, rfl, rfl, rfl, ⟨rfl, rfl, rfl, rfl⟩, ⟨rfl, rfl, rfl⟩, ⟨rfl, rfl⟩, ⟨rfl, rfl, rfl⟩⟩

theorem CellBecomes.cur (h : CellBecomes w n s t) : t.cur = some w := by
  obtain ⟨hcell, -, _, rfl⟩ := h
  exact hcell

theorem CellBecomes.refl (h : s.cur = some v) : CellBecomes v 0 s s := ⟨h, fun _ _ => rfl, s.tape, rfl⟩

theorem CellBecomes.trans (h : CellBecomes v m s t) (h' : CellBecomes w n t u) : CellBecomes w (m + n) s u := by
  obtain ⟨-, hst, _, rfl⟩ := h
  obtain ⟨hcell, htu, tape, rfl⟩ := h'
  exact ⟨hcell, fun b hb => (htu b hb).trans (hst b hb), tape, by simp only [Nat.add_assoc]⟩

/-- A store to the current cell, then the advance. -/
theorem cellBecomes_writeCur_advance (w : Byte) (h : s.cp < s.tlen) : CellBecomes w 1 s (s.writeCur w).advance :=
  ⟨State.readTape_writeTape_same w h, fun b hb => State.readTape_writeTape_other s s.cp b w hb, _, rfl⟩

end Frame

/-! ### One instruction that computes on the current cell -/

/-- The instruction `i` replaces the value `v` of the current cell by `f v` and advances. -/
def Stores (i : Instr) (f : Byte → Byte) : Prop :=
  ∀ s : State, exec i s = s.withCur fun v => .next (s.writeCur (f v)).advance

/-- R100. -/
theorem stores_inc : Stores .inc incCell := fun _ => rfl

/-- R101. -/
theorem stores_dec : Stores .dec decCell := fun _ => rfl

theorem Stores.exec_of_cur {i : Instr} {f : Byte → Byte} {s : State} {v : Byte} (hi : Stores i f)
    (hv : s.cur = some v) : ∃ t, exec i s = .next t ∧ CellBecomes (f v) 1 s t :=
  ⟨_, (hi s).trans (State.withCur_of_cur _ hv), cellBecomes_writeCur_advance (f v) (State.lt_of_cur hv)⟩

/-! ### Sequences of them -/

theorem execAll_cons_of_next {i : Instr} {s t : State} (is : List Instr) (h : exec i s = .next t) :
    execAll (i :: is) s = execAll is t := by
  rw [execAll, h]

/-- Wherever the current cell exists, with any value `v`, the instructions complete with `f v` in it. -/
def Computes (is : List Instr) (f : Byte → Byte) : Prop :=
  ∀ (s : State) (v : Byte), s.cur = some v → ∃ t, execAll is s = .next t ∧ CellBecomes (f v) is.length s t

theorem computes_nil : Computes [] id := fun s _ hv => ⟨s, rfl, .refl hv⟩

theorem Computes.cons {i : Instr} {is : List Instr} {f g : Byte → Byte} (hi : Stores i f) (his : Computes is g) :
    Computes (i :: is) (g ∘ f) := by
  intro s v hv
  obtain ⟨t, hst, hcell⟩ := hi.exec_of_cur hv
  obtain ⟨u, htu, hcells⟩ := his t (f v) hcell.cur
  refine ⟨u, (execAll_cons_of_next is hst).trans htu, ?_⟩
  rw [List.length_cons, Nat.add_comm]
  exact hcell.trans hcells

theorem computes_pair {i j : Instr} {f g : Byte → Byte} (hi : Stores i f) (hj : Stores j g) :
    Computes [i, j] (g ∘ f) :=
  Computes.cons (g := g) hi (Computes.cons (g := id) hj computes_nil)

theorem computes_replicate {i : Instr} {f : Byte → Byte} (hi : Stores i f) (n : Nat) :
    Computes (List.replicate n i) f^[n] := by
  induction n with
  | zero => exact computes_nil
  | succ n ih => exact .cons hi ih

/-- Instructions that compute the identity on `v` complete and restore the cell. -/
theorem Computes.restores {is : List Instr} {f : Byte → Byte} {s : State} {v : Byte} (his : Computes is f)
    (hv : s.cur = some v) (hf : f v = v) : ∃ t, execAll is s = .next t ∧ t.cur = some v := by
  obtain ⟨t, ht, hcell⟩ := his s v hv
  exact ⟨t, ht, hf ▸ hcell.cur⟩

/-- One instruction `n` times: the value is the `n`-th iterate, with the frame of one store. -/
theorem Stores.execAll_replicate {i : Instr} {f : Byte → Byte} (hi : Stores i f) (n : Nat) {s : State} {v : Byte}
    (hv : s.cur = some v) :
    ∃ t, execAll (List.replicate n i) s = .next t ∧ t.cur = some (f^[n] v) ∧
      KeepsTapeExcept s.cp s t ∧ t.cp = s.cp ∧ t.ip = s.ip + n ∧ t.hist = s.hist := by
  obtain ⟨t, ht, hcell⟩ := computes_replicate hi n s v hv
  obtain ⟨htape, hip, hcp, -, hhist, -⟩ := hcell.frame
  rw [List.length_replicate] at hip
  exact ⟨t, ht, hcell.cur, htape, hcp, hip, hhist⟩

/-! ### The laws of the cell's value (R102) -/

theorem incCell_eq_ofNat (v : Byte) : incCell v = BitVec.ofNat 8 ((v.toNat + 1) % 256) :=
  BitVec.eq_of_toNat_eq (by simp [incCell_toNat])

theorem decCell_eq_ofNat (v : Byte) : decCell v = BitVec.ofNat 8 ((v.toNat + 255) % 256) :=
  BitVec.eq_of_toNat_eq (by simp [decCell_toNat])

theorem decCell_incCell (v : Byte) : decCell (incCell v) = v := by
  refine BitVec.eq_of_toNat_eq ?_
  have hv := v.isLt
  rw [decCell_toNat, incCell_toNat]
  omega

theorem incCell_decCell (v : Byte) : incCell (decCell v) = v := by
  refine BitVec.eq_of_toNat_eq ?_
  have hv := v.isLt
  rw [incCell_toNat, decCell_toNat]
  omega

theorem incCell_iterate_toNat (n : Nat) (v : Byte) : (incCell^[n] v).toNat = (v.toNat + n) % 256 := by
  induction n with
  | zero => exact (Nat.mod_eq_of_lt v.isLt).symm
  | succ n ih => rw [Function.iterate_succ_apply', incCell_toNat, ih, Nat.mod_add_mod, Nat.add_assoc]

theorem decCell_iterate_toNat (n : Nat) (v : Byte) :
    ((decCell^[n] v).toNat : Int) = ((v.toNat : Int) - n) % 256 := by
  induction n with
  | zero =>
    have hv := v.isLt
    rw [Function.iterate_zero_apply]
    omega
  | succ n ih =>
    rw [Function.iterate_succ_apply', decCell_toNat]
    omega

theorem incCell_iterate_256 (v : Byte) : incCell^[256] v = v := by
  refine BitVec.eq_of_toNat_eq ?_
  rw [incCell_iterate_toNat, Nat.add_mod_right, Nat.mod_eq_of_lt v.isLt]

end Sys2Proof.Machine
end

section
/-! PROOFS. The statements of cell arithmetic (spec/42_cell_arithmetic.md). -/

namespace Sys2Proof.CellArithmetic

open Sys2Proof.Machine Sys2Proof.Safety

/-- Settles O10: one `INC` is one store to the current cell, and the value comes back after 256 of them. -/
theorem incAddsOneModulo256 : Obligations.IncAddsOneModulo256 := by
  intro s v hv
  refine ⟨?_, (computes_replicate stores_inc 256).restores hv (incCell_iterate_256 v)⟩
  obtain ⟨t, ht, hcell⟩ := stores_inc.exec_of_cur hv
  exact ⟨t, ht, incCell_eq_ofNat v ▸ hcell.cell, hcell.frame⟩

/-- Settles O11: one `DEC` is one store to the current cell, and the two functions of the value are inverse. -/
theorem decSubtractsOneModulo256 : Obligations.DecSubtractsOneModulo256 := by
  intro s v hv
  refine ⟨?_, (computes_pair stores_inc stores_dec).restores hv (decCell_incCell v),
    (computes_pair stores_dec stores_inc).restores hv (incCell_decCell v)⟩
  obtain ⟨t, ht, hcell⟩ := stores_dec.exec_of_cur hv
  exact ⟨t, ht, decCell_eq_ofNat v ▸ hcell.cell, hcell.frame⟩

/-- Settles O12: the value after `n` instructions is the `n`-th iterate of what one of them computes. -/
theorem repeatedArithmeticIsModular : Obligations.RepeatedArithmeticIsModular := by
  intro n s v hv
  obtain ⟨t, ht, hcur, hframe⟩ := stores_inc.execAll_replicate n hv
  obtain ⟨u, hu, hcur', hframe'⟩ := stores_dec.execAll_replicate n hv
  exact ⟨⟨t, _, ht, hcur, incCell_iterate_toNat n v, hframe⟩, ⟨u, _, hu, hcur', decCell_iterate_toNat n v, hframe'⟩⟩

end Sys2Proof.CellArithmetic
end

section
/-! PROOFS. The pointer moves (spec/43_pointer_moves.md R104, R105, R108): what `RIGHT` and `LEFT` answer, case by case,
with one frame for every move that completes. -/

namespace Sys2Proof.Machine

open Sys2Proof.Safety

/-! ### The frame -/

/-- `t` is `s` with `CP` at `a` and `IP` advanced; the tape apart, everything else is as it was. -/
def MovesPointerTo (a : Nat) (s t : State) : Prop :=
  ∃ m n, t = { s with cp := a, ip := s.ip + 1, tape := m, tlen := n }

theorem MovesPointerTo.cp {a : Nat} {s t : State} (h : MovesPointerTo a s t) : t.cp = a := by
  obtain ⟨_, _, rfl⟩ := h
  rfl

theorem MovesPointerTo.ip {a : Nat} {s t : State} (h : MovesPointerTo a s t) : t.ip = s.ip + 1 := by
  obtain ⟨_, _, rfl⟩ := h
  rfl

theorem MovesPointerTo.frame {a : Nat} {s t : State} (h : MovesPointerTo a s t) :
    t.phase = s.phase ∧ t.hist = s.hist ∧
    KeepsProgram s t ∧ KeepsResolver s t ∧ KeepsInput s t ∧ KeepsErrorRecord s t := by
  obtain ⟨_, _, rfl⟩ := h
  exact ⟨rfl, rfl, ⟨rfl, rfl, rfl, rfl⟩, ⟨rfl, rfl, rfl⟩, ⟨rfl, rfl⟩, ⟨rfl, rfl, rfl⟩⟩

/-! ### Extending the tape -/

section Extend

variable {s : State}

theorem State.extendTape_at_end (h : s.cp = s.tlen) : s.extendTape = s.tapeAppend := if_pos h

theorem State.extendTape_elsewhere (h : s.cp ≠ s.tlen) : s.extendTape = s := if_neg h

theorem State.cur_extendTape_at_end (h : s.cp = s.tlen) : s.extendTape.cur = some 0 := by
  rw [State.extendTape_at_end h, State.cur, State.tapeAppend_cp, h, State.readTape_tapeAppend_same]

theorem State.readTape_extendTape {a : Nat} (h : a < s.tlen) : s.extendTape.readTape a = s.readTape a := by
  rcases s.extendTape_cases with ⟨-, he⟩ | ⟨-, he⟩ <;> rw [he]
  exact State.readTape_tapeAppend_below h

/-- A pointer at most at the tape's length is inside the extended tape. -/
theorem State.lt_tlen_extendTape (h : s.cp ≤ s.tlen) : s.cp < s.extendTape.tlen := by
  rcases s.extendTape_cases with ⟨-, he⟩ | ⟨hne, he⟩ <;> rw [he]
  · exact Nat.lt_succ_of_le h
  · exact Nat.lt_of_le_of_ne h hne

end Extend

/-! ### `RIGHT` -/

/-- The state after a `RIGHT` that completes (R104). -/
def State.movedRight (s : State) : State := ((s.setCp (s.cp + 1)).extendTape).advance

section Right

variable {s : State}

/-- R108. -/
theorem execRight_at_limit (hend : s.cp + 1 = s.tlen) (hmax : s.tapeMax = some s.tlen) :
    execRight s = .next (s.raise .tapeLimit codeRight s.ip) :=
  if_pos (State.atTapeLimit_iff.2 ⟨hend, hmax⟩)

/-- R104. -/
theorem execRight_off_limit (h : ¬ (s.cp + 1 = s.tlen ∧ s.tapeMax = some s.tlen)) :
    execRight s = .next s.movedRight :=
  if_neg fun hl => h (State.atTapeLimit_iff.1 hl)

theorem movesPointerTo_movedRight (s : State) : MovesPointerTo (s.cp + 1) s s.movedRight := by
  unfold State.movedRight
  rcases (s.setCp (s.cp + 1)).extendTape_cases with ⟨-, he⟩ | ⟨-, he⟩ <;> rw [he] <;> exact ⟨_, _, rfl⟩

/-- The move onto a new cell: one more cell, and it reads 0. -/
theorem State.movedRight_grows (hend : s.cp + 1 = s.tlen) :
    s.movedRight.tlen = s.tlen + 1 ∧ s.movedRight.cur = some 0 := by
  have hend' : (s.setCp (s.cp + 1)).cp = (s.setCp (s.cp + 1)).tlen := hend
  refine ⟨?_, State.cur_extendTape_at_end hend'⟩
  rw [State.movedRight, State.extendTape_at_end hend', State.advance_tlen, State.tapeAppend_tlen, State.setCp_tlen]

/-- The move onto a cell that is there. -/
theorem State.movedRight_tlen (hend : s.cp + 1 ≠ s.tlen) : s.movedRight.tlen = s.tlen := by
  rw [State.movedRight, State.extendTape_elsewhere (s := s.setCp (s.cp + 1)) hend, State.advance_tlen,
    State.setCp_tlen]

theorem State.readTape_movedRight {a : Nat} (h : a < s.tlen) : s.movedRight.readTape a = s.readTape a :=
  State.readTape_extendTape (s := s.setCp (s.cp + 1)) h

theorem State.movedRight_cp_lt (h : s.cp < s.tlen) : s.movedRight.cp < s.movedRight.tlen := by
  rw [(movesPointerTo_movedRight s).cp]
  exact State.lt_tlen_extendTape (s := s.setCp (s.cp + 1)) h

end Right

/-! ### `LEFT` -/

section Left

variable {s : State}

/-- R106: the tape is not asked. -/
theorem execLeft_at_zero (h : s.cp = 0) : execLeft s = .next (s.raise .negativeTapeIndex codeLeft s.ip) := if_pos h

/-- R105. -/
theorem execLeft_off_zero (h : s.cp ≠ 0) : execLeft s = .next (s.setCp (s.cp - 1)).advance := if_neg h

theorem movesPointerTo_left (s : State) : MovesPointerTo (s.cp - 1) s (s.setCp (s.cp - 1)).advance := ⟨_, _, rfl⟩

/-- R106, for the step: the trace of the `<` moves no pointer. -/
theorem step_left_at_zero (hp : s.phase = .run) (hf : s.fetch = some codeLeft) (hcp : s.cp = 0) :
    step s = .next ((s.traceStep codeLeft).raise .negativeTapeIndex codeLeft s.ip) := by
  have hcp' : (s.traceStep codeLeft).cp = 0 := (s.traceStep_cp codeLeft).trans hcp
  calc step s = execLeft (s.traceStep codeLeft) := step_of_fetch hp hf
    _ = .next ((s.traceStep codeLeft).raise .negativeTapeIndex codeLeft s.ip) := by
      rw [execLeft_at_zero hcp', State.traceStep_ip]

end Left

end Sys2Proof.Machine
end

section
/-! PROOFS. The statements of the pointer moves (spec/43_pointer_moves.md). -/

namespace Sys2Proof.PointerMoves

open Sys2Proof.Machine Sys2Proof.Safety

/-- Settles O13: off the limit the state after the move, at the limit the fault entry. -/
theorem rightMovesAndExtends : Obligations.RightMovesAndExtends := by
  refine fun s => ⟨fun h => ?_, fun ⟨hend, hmax⟩ => ⟨_, execRight_at_limit hend hmax, rfl, rfl, rfl⟩⟩
  have hmove := movesPointerTo_movedRight s
  exact ⟨s.movedRight, execRight_off_limit h, hmove.cp, hmove.ip, State.movedRight_grows, State.movedRight_tlen,
    fun _ => State.readTape_movedRight, State.movedRight_cp_lt, hmove.frame⟩

/-- Settles O14: the fault entry at the limit, which an unbounded tape does not have. -/
theorem rightAtLimitTakesTapeLimit : Obligations.RightAtLimitTakesTapeLimit := by
  refine ⟨fun s hend hmax => execRight_at_limit hend hmax, fun s t hinf h => ?_⟩
  have hoff : ¬ (s.cp + 1 = s.tlen ∧ s.tapeMax = some s.tlen) := fun ⟨_, hmax⟩ => nomatch hinf.symm.trans hmax
  obtain rfl := Host.Outcome.next.inj ((execRight_off_limit hoff).symm.trans h)
  obtain ⟨hphase, -, -, -, -, hcause, -⟩ := (movesPointerTo_movedRight s).frame
  exact ⟨hphase, hcause⟩

/-- Settles O15: the state after the move, and at `CP` = 0 the fault entry. -/
theorem leftMovesPointer : Obligations.LeftMovesPointer := by
  refine fun s => ⟨fun h => ?_, execLeft_at_zero⟩
  have hmove := movesPointerTo_left s
  exact ⟨_, execLeft_off_zero h, Nat.succ_pred_eq_of_ne_zero h, hmove.ip, ⟨rfl, fun _ => rfl⟩, hmove.frame⟩

/-- Settles O16: the step takes the fault entry on the traced state, whose tape and pointers are those of `s`. -/
theorem leftAtZeroAlwaysFails : Obligations.LeftAtZeroAlwaysFails := by
  intro s hp hf hcp
  exact ⟨_, step_left_at_zero hp hf hcp, rfl, rfl, rfl, rfl, (s.traceStep_cp codeLeft).trans hcp,
    s.traceStep_ip codeLeft, ⟨s.traceStep_tlen codeLeft, s.traceStep_readTape codeLeft⟩, rfl⟩

end Sys2Proof.PointerMoves
end

section
/-! PROOFS. Loop control (spec/44_loop_control.md R110 to R113): `LOOPS` and `LOOPE` as one kind of instruction, a test of
the current cell that chooses where `IP` goes, and the partner that the complete table names at a bracket. -/

namespace Sys2Proof.Machine

open Sys2Proof.Safety

/-! ### The tests and the branch words -/

@[simp] theorem loopsTaken_iff (v : Byte) : loopsTaken v = true ↔ v = 0 := beq_iff_eq

@[simp] theorem loopeTaken_iff (v : Byte) : loopeTaken v = true ↔ v ≠ 0 := by
  rw [loopeTaken, isZero, Bool.not_eq_true', beq_eq_false_iff_ne]

/-- R145, for `[`. -/
theorem branchOf_loops {s : State} {v : Byte} (hcur : s.cur = some v) :
    branchOf .loops s = if loopsTaken v then .skip else .enter := by
  simp only [branchOf, hcur]

/-- R145, for `]`. -/
theorem branchOf_loope {s : State} {v : Byte} (hcur : s.cur = some v) :
    branchOf .loope s = if loopeTaken v then .reenter else .finish := by
  simp only [branchOf, hcur]

/-! ### One instruction that jumps -/

/-- The instruction `i` takes the jump of `JT` exactly where `taken` holds of the current cell, and advances. -/
def Jumps (i : Instr) (taken : Byte → Bool) : Prop :=
  ∀ s : State, exec i s = s.withCur fun v => .next (s.jumpIf (taken v)).advance

/-- R110. -/
theorem jumps_loops : Jumps .loops loopsTaken := fun _ => rfl

/-- R111. -/
theorem jumps_loope : Jumps .loope loopeTaken := fun _ => rfl

/-- A bracket leaves everything but `IP` as it was, whether it jumps or not. -/
theorem State.jumpIf_advance_frame {s t : State} {b : Bool} (h : t = (s.jumpIf b).advance) :
    KeepsTape s t ∧ t.cp = s.cp ∧ t.phase = s.phase ∧ t.hist = s.hist ∧
    KeepsProgram s t ∧ KeepsResolver s t ∧ KeepsInput s t ∧ KeepsErrorRecord s t := by
  rw [State.jumpIf_eq] at h
  subst h
  exact ⟨⟨rfl, fun _ => rfl⟩, rfl, rfl, rfl, ⟨rfl, rfl, rfl, rfl⟩, ⟨rfl, rfl, rfl⟩, ⟨rfl, rfl⟩, ⟨rfl, rfl, rfl⟩⟩

section Jump

variable {i : Instr} {taken : Byte → Bool} {s : State} {v : Byte}

theorem Jumps.exec_of_cur (hi : Jumps i taken) (hcur : s.cur = some v) :
    exec i s = .next (s.jumpIf (taken v)).advance :=
  (hi s).trans (State.withCur_of_cur _ hcur)

/-- R110, R111: the fall-through. -/
theorem State.jumpIf_advance_ip_of_not_taken {b : Bool} (hb : ¬ b = true) : (s.jumpIf b).advance.ip = s.ip + 1 := by
  rw [State.advance_ip, State.jumpIf, if_neg hb]

/-- R112: the taken jump lands one past the entry of `JT`. -/
theorem State.jumpIf_advance_ip_of_taken {b : Bool} {q : Nat} (hb : b = true) (hq : Assoc.get s.jt s.ip = some q) :
    (s.jumpIf b).advance.ip = q + 1 := by
  rw [State.advance_ip, State.jumpIf, if_pos hb, State.setIp_ip, State.jumpEntry_of_get hq]

/-- The step at a fetched bracket whose jump is taken. -/
theorem Jumps.step_of_taken {c : Byte} {q : Nat} (hi : Jumps (decodeCell c) taken) (hp : s.phase = .run)
    (hf : s.fetch = some c) (hcur : s.cur = some v) (hv : taken v = true) (hq : Assoc.get s.jt s.ip = some q) :
    ∃ t, step s = .next t ∧ t.ip = q + 1 := by
  have hcur' : (s.traceStep c).cur = some v := (s.traceStep_cur c).trans hcur
  have hq' : Assoc.get (s.traceStep c).jt (s.traceStep c).ip = some q := by
    rw [State.traceStep_jt, State.traceStep_ip, hq]
  exact ⟨_, (step_of_fetch hp hf).trans (hi.exec_of_cur hcur'), State.jumpIf_advance_ip_of_taken hv hq'⟩

end Jump

end Sys2Proof.Machine

namespace Sys2Proof.Safety

open Sys2Proof.Machine

/-! ### The partner of a bracket -/

theorem IsOpener.not_isCloser {s : State} {p : Nat} (hopen : IsOpener s p) : ¬ IsCloser s p := fun hclose =>
  codeLoops_ne_codeLoope (Option.some.inj (hopen.symm.trans hclose))

section Partner

variable {s : State} {p : Nat} (hs : Inv s) (hp : s.phase = .run)

include hs hp

/-- R113: in phase `RUN` the table has an entry at every `[`, and it names a `]` further on. -/
theorem partner_of_opener (hopen : IsOpener s p) : ∃ q, Assoc.get s.jt p = some q ∧ IsCloser s q ∧ p < q := by
  have htable := hs.tableComplete (.inl hp)
  obtain ⟨q, hq⟩ := (htable.domain p).2 ⟨State.lt_of_readProg hopen, .inl hopen, List.not_mem_nil⟩
  rcases (htable.pairing p q hq).2 with ⟨-, hclose, hlt⟩ | ⟨hclose, -, -⟩
  · exact ⟨q, hq, hclose, hlt⟩
  · exact absurd hclose hopen.not_isCloser

/-- R113: and at every `]`, where it names a `[` further back. -/
theorem partner_of_closer (hclose : IsCloser s p) : ∃ q, Assoc.get s.jt p = some q ∧ IsOpener s q ∧ q < p := by
  have htable := hs.tableComplete (.inl hp)
  obtain ⟨q, hq⟩ := (htable.domain p).2 ⟨State.lt_of_readProg hclose, .inr hclose, List.not_mem_nil⟩
  rcases (htable.pairing p q hq).2 with ⟨hopen, -, -⟩ | ⟨-, hopen, hlt⟩
  · exact absurd hclose hopen.not_isCloser
  · exact ⟨q, hq, hopen, hlt⟩

end Partner

end Sys2Proof.Safety
end

section
/-! PROOFS. The statements of loop control (spec/44_loop_control.md). -/

namespace Sys2Proof.LoopControl

open Sys2Proof.Machine Sys2Proof.Safety

/-- Settles O17: the jump of `[`, with its test read as "the cell is 0". -/
theorem loopStartJumpsOnZero : Obligations.LoopStartJumpsOnZero := by
  intro s v hcur
  refine ⟨_, jumps_loops.exec_of_cur hcur, fun hv => ?enter, fun hv => ?skip, State.jumpIf_advance_frame rfl⟩
  case enter =>
    have htest : ¬ loopsTaken v = true := mt (loopsTaken_iff v).1 hv
    exact ⟨State.jumpIf_advance_ip_of_not_taken htest, (branchOf_loops hcur).trans (if_neg htest)⟩
  case skip =>
    have htest : loopsTaken v = true := (loopsTaken_iff v).2 hv
    exact ⟨(branchOf_loops hcur).trans (if_pos htest), fun _ => State.jumpIf_advance_ip_of_taken htest⟩

/-- Settles O18: the jump of `]`, with its test read as "the cell is not 0". -/
theorem loopEndJumpsOnNonZero : Obligations.LoopEndJumpsOnNonZero := by
  intro s v hcur
  refine ⟨_, jumps_loope.exec_of_cur hcur, fun hv => ?finish, fun hv => ?reenter, State.jumpIf_advance_frame rfl⟩
  case finish =>
    have htest : ¬ loopeTaken v = true := fun h => (loopeTaken_iff v).1 h hv
    exact ⟨State.jumpIf_advance_ip_of_not_taken htest, (branchOf_loope hcur).trans (if_neg htest)⟩
  case reenter =>
    have htest : loopeTaken v = true := (loopeTaken_iff v).2 hv
    exact ⟨(branchOf_loope hcur).trans (if_pos htest), fun _ => State.jumpIf_advance_ip_of_taken htest⟩

/-- Settles O24: the complete table names the partner, and the step lands one past it. -/
theorem jumpLandsPastPartner : Obligations.JumpLandsPastPartner := by
  refine fun s v hs hp hcur => ⟨fun hopen hv => ?opener, fun hclose hv => ?closer⟩
  case opener =>
    obtain ⟨q, hq, hcloser, hlt⟩ := partner_of_opener hs hp hopen
    have htest := (loopsTaken_iff v).2 hv
    obtain ⟨t, hstep, hip⟩ := Jumps.step_of_taken (c := codeLoops) jumps_loops hp hopen hcur htest hq
    exact ⟨q, t, hq, hcloser, hlt, hstep, hip, hip ▸ State.lt_of_readProg hcloser⟩
  case closer =>
    obtain ⟨q, hq, hopener, hlt⟩ := partner_of_closer hs hp hclose
    have htest := (loopeTaken_iff v).2 hv
    obtain ⟨t, hstep, hip⟩ := Jumps.step_of_taken (c := codeLoope) jumps_loope hp hclose hcur htest hq
    exact ⟨q, t, hq, hopener, hlt, hstep, hip, hip ▸ hlt⟩

end Sys2Proof.LoopControl
end

section
/-! PROOFS. Character I/O (spec/45_io.md R116 to R122): an accepted unit as one store to the current cell, and rejected
units, one or many, as one relation, so that a `,` that is retried is an induction over the units. -/

namespace Sys2Proof.Machine

open Sys2Proof.Safety

/-! ### Units and their validity -/

/-- R118: what makes a unit invalid. -/
theorem not_validUnit {u : InputUnit} (h : u.length ≠ 1 ∨ ∃ c, u = [c] ∧ 255 < c) : ¬ ValidUnit u := by
  rintro ⟨c, rfl, hc⟩
  rcases h with hlen | ⟨d, hd, hlarge⟩
  · exact hlen rfl
  · obtain rfl := List.singleton_inj.1 hd
    omega

/-- R118: the value of a valid unit is its code point, unchanged. -/
theorem validValue_singleton {c : Nat} (hc : c ≤ 255) : ∃ v, validValue [c] = some v ∧ v.toNat = c :=
  ⟨_, validValue_eq_some.2 ⟨c, rfl, hc, rfl⟩, Nat.mod_eq_of_lt (Nat.lt_succ_of_le hc)⟩

/-- R25, R148: the unit that arrives at an empty input is the next one. -/
theorem unitFrom_supply {env : Environment} {q : InputQueue} (h : unitFrom env q 0 = none) (u : InputUnit) :
    unitFrom env (q.supply u) 0 = some u := by
  obtain ⟨_ | ⟨u', rest⟩, _ | k⟩ := q
  case nil.none => rfl
  all_goals cases h

/-! ### An accepted unit -/

/-- R117: inside the tape a valid unit is one store to the current cell, once it is taken and `INWAIT` is cleared. -/
theorem execInFrom_accepts {env : Environment} {s : State} {u : InputUnit} {v : Byte}
    (hu : unitFrom env s.inq 0 = some u) (hv : validValue u = some v) (hcp : s.cp < s.tlen) :
    ∃ q t, (∀ n, unitFrom env q n = unitFrom env s.inq (n + 1)) ∧ execInFrom env s = .next t ∧
      CellBecomes v 1 ((s.setInq q).setInwait false) t := by
  obtain ⟨q, hq, h⟩ := execInFrom_of_valid hu hv
  exact ⟨q, _, hq, h.trans (State.withCur_of_cur _ (State.readTape_of_lt hcp)), cellBecomes_writeCur_advance v hcp⟩

/-! ### Rejected units -/

/-- `t` is `s` after `n` rejected units: they are consumed, each is answered with one `DIAG`, `INWAIT` is 1, and
everything else is as it was. -/
structure Rejects (env : Environment) (n : Nat) (s t : State) : Prop where
  units : ∀ k, unitFrom env t.inq k = unitFrom env s.inq (k + n)
  rest : ∃ q, t = { s with inq := q, inwait := true, hist := s.hist ++ List.replicate n .diag }

section Retry

variable {env : Environment} {s t u : State} {m n : Nat}

theorem Rejects.frame (h : Rejects env n s t) :
    t.hist = s.hist ++ List.replicate n .diag ∧ t.inwait = true ∧ t.ip = s.ip ∧ t.cp = s.cp ∧ t.phase = s.phase ∧
    KeepsTape s t ∧ KeepsProgram s t ∧ KeepsResolver s t ∧ KeepsErrorRecord s t := by
  obtain ⟨-, _, rfl⟩ := h
  exact ⟨rfl, rfl, rfl, rfl, rfl, ⟨rfl, fun _ => rfl⟩, ⟨rfl, rfl, rfl, rfl⟩, ⟨rfl, rfl, rfl⟩, ⟨rfl, rfl, rfl⟩⟩

/-- A trace before the rejections shows in the history alone. -/
theorem Rejects.frame_of_traced {c : Byte} (h : Rejects env n (s.traceStep c) t) :
    t.phase = s.phase ∧ t.ip = s.ip ∧ t.cp = s.cp ∧ KeepsTape s t ∧ t.inwait = true ∧
    t.hist = (s.traceStep c).hist ++ List.replicate n .diag ∧
    ∀ k, unitFrom env t.inq k = unitFrom env s.inq (k + n) := by
  obtain ⟨hhist, hwait, hip, hcp, hphase, htape, -⟩ := h.frame
  simp only [State.traceStep_phase, State.traceStep_ip, State.traceStep_cp, KeepsTape, State.traceStep_tlen,
    State.traceStep_readTape] at hphase hip hcp htape
  exact ⟨hphase, hip, hcp, htape, hwait, hhist, s.traceStep_inq c ▸ h.units⟩

theorem Rejects.trans (h : Rejects env m s t) (h' : Rejects env n t u) : Rejects env (m + n) s u := by
  refine ⟨fun k => ?_, ?_⟩
  · rw [h'.units, h.units, Nat.add_assoc, Nat.add_comm n m]
  · obtain ⟨-, _, rfl⟩ := h
    obtain ⟨-, q, rfl⟩ := h'
    exact ⟨q, by rw [List.append_assoc, List.replicate_append_replicate]⟩

/-- R120: the operation is not completed, so that the same `,` comes next. -/
theorem Rejects.atInput (h : Rejects env n s t) (hs : AtInput s) : AtInput t := by
  obtain ⟨-, _, rfl⟩ := h
  exact hs

/-- R117, R120: `IN` answers one invalid unit with one rejection. -/
theorem execInFrom_rejects (h : ∃ x, unitFrom env s.inq 0 = some x ∧ ¬ ValidUnit x) :
    ∃ t, execInFrom env s = .next t ∧ Rejects env 1 s t := by
  obtain ⟨x, hx, hinvalid⟩ := h
  obtain ⟨q, hq, ht⟩ := execInFrom_of_invalid hx (validValue_eq_none.2 hinvalid)
  exact ⟨_, ht, hq, q, rfl⟩

theorem AtInput.traceStep (hs : AtInput s) (c : Byte) : AtInput (s.traceStep c) := by
  simpa [AtInput, State.fetch] using hs

/-- R95, R120: a step at a `,` that meets an invalid unit rejects it after the trace. -/
theorem stepFrom_rejects (hs : AtInput s) (h : ∃ x, unitFrom env s.inq 0 = some x ∧ ¬ ValidUnit x) :
    ∃ t, stepFrom env s = .next t ∧ Rejects env 1 (s.traceStep codeIn) t := by
  obtain ⟨hp, hf⟩ := hs
  rw [stepFrom, stepBy_of_fetch _ hp hf]
  exact execInFrom_rejects (by rwa [State.traceStep_inq])

/-- R121: a `,` that meets `n + 1` invalid units rejects each in a step of its own. Only the first step is traced:
`INWAIT` is 1 from there on. -/
theorem run_rejects (hs : AtInput s) (h : ∀ k, k < n + 1 → ∃ x, unitFrom env s.inq k = some x ∧ ¬ ValidUnit x) :
    ∃ t, Host.Core.run (coreFrom env) (n + 1) s = .next t ∧ Rejects env (n + 1) (s.traceStep codeIn) t := by
  induction n generalizing s with
  | zero =>
    obtain ⟨t, hstep, ht⟩ := stepFrom_rejects hs (h 0 (Nat.zero_lt_succ _))
    exact ⟨t, coreRun_succ (M := coreFrom env) 0 hstep, ht⟩
  | succ n ih =>
    obtain ⟨t, hstep, ht⟩ := stepFrom_rejects hs (h 0 (Nat.zero_lt_succ _))
    obtain ⟨-, hwait, -⟩ := ht.frame
    have hunits : ∀ k, unitFrom env t.inq k = unitFrom env s.inq (k + 1) := by simpa using ht.units
    obtain ⟨u, hrun, hu⟩ := ih (ht.atInput (hs.traceStep codeIn)) fun k hk => hunits k ▸ h (k + 1) (by omega)
    rw [State.traceStep_of_untraced (by simp [hwait])] at hu
    exact ⟨u, (coreRun_succ (M := coreFrom env) (n + 1) hstep).trans hrun, Nat.add_comm 1 (n + 1) ▸ ht.trans hu⟩

end Retry

end Sys2Proof.Machine
end

section
/-! PROOFS. The statements of character I/O (spec/45_io.md). -/

namespace Sys2Proof.CharacterIO

open Sys2Proof.Machine Sys2Proof.Safety

/-- Settles O20: a valid unit is one store to the current cell, an invalid one is one rejection. -/
theorem inputTakesOneUnit : Obligations.InputTakesOneUnit := by
  refine fun s u hu => ⟨?valid, fun hinvalid => ?invalid⟩
  case valid =>
    rintro c rfl hc hcp
    obtain ⟨v, hv, hval⟩ := validValue_singleton hc
    obtain ⟨q, t, hunits, ht, hcell⟩ := execInFrom_accepts hu hv hcp
    obtain ⟨htape, hip, hcp', hphase, hhist, hprog, hres, ⟨hinq, hwait⟩, herr⟩ := hcell.frame
    exact ⟨t, v, ht, hcell.cell, hval, fun n => hinq ▸ hunits n, hwait, hip, htape, hcp', hphase, hhist, hprog, hres,
      herr⟩
  case invalid =>
    obtain ⟨t, ht, hrej⟩ := execInFrom_rejects ⟨u, hu, not_validUnit hinvalid⟩
    obtain ⟨hhist, hwait, hframe⟩ := hrej.frame
    exact ⟨t, ht, hhist, hwait, hrej.units, hframe⟩

/-- Settles O21: a step at a `,` needs a unit, and the one that arrives is the next one. -/
theorem inputWaitsForUnit : Obligations.InputWaitsForUnit := by
  refine ⟨fun s => execInFrom_of_no_unit, fun s hp hf hnone => ⟨?notEnded, fun t hstep => ?noStep⟩,
    fun s c hnone hcp hc => ?arrival⟩
  case notEnded => simp [RunEnded, hp]
  case noStep =>
    rw [step_eq_stepFrom] at hstep
    obtain ⟨u, hu⟩ := unit_of_stepFrom_atInput ⟨hp, hf⟩ hstep
    exact absurd (hu.symm.trans hnone) nofun
  case arrival =>
    obtain ⟨v, hv, hval⟩ := validValue_singleton hc
    obtain ⟨q, t, -, ht, hcell⟩ := execInFrom_accepts (s := s.supply [c]) (unitFrom_supply hnone [c]) hv hcp
    obtain ⟨-, hip, -⟩ := hcell.frame
    exact ⟨t, v, ht, hcell.cur, hval, hip⟩

/-- Settles O22: the run of rejections in the open environment. -/
theorem inputRetriesWithoutBound : Obligations.InputRetriesWithoutBound := by
  intro n s hp hf hinvalid
  obtain ⟨t, hrun, hrej⟩ := run_rejects ⟨hp, hf⟩ hinvalid
  obtain ⟨hphase, hip, hcp, htape, hwait, hhist, hunits⟩ := hrej.frame_of_traced
  exact ⟨t, (run_eq_run_coreFrom (n + 1) s).trans hrun, hphase.trans hp, hip, hcp, hwait, hhist, htape, hunits⟩

/-- Settles O55: the run of rejections in the chosen environment, as long as one likes. -/
theorem invalidInputForEverNeverHalts : Obligations.InvalidInputForEverNeverHalts := by
  intro env s hp hf hinvalid n
  obtain ⟨t, hrun, hrej⟩ := run_rejects (n := n) ⟨hp, hf⟩ fun k _ => hinvalid k
  obtain ⟨hphase, hip, hcp, htape, -, hhist, -⟩ := hrej.frame_of_traced
  exact ⟨t, hrun, hphase.trans hp, hip, hcp, htape, hhist⟩

/-- Settles O19: the event is appended to `HIST` and seen as output, and the advance moves `IP`. -/
theorem outEmitsCurrentCell : Obligations.OutEmitsCurrentCell := by
  intro s v hcur
  exact ⟨(s.emit (.out v)).advance, State.withCur_of_cur _ hcur, rfl, outputOf_append s.hist [.out v], rfl,
    ⟨rfl, fun _ => rfl⟩, rfl, rfl, ⟨rfl, rfl, rfl, rfl⟩, ⟨rfl, rfl, rfl⟩, ⟨rfl, rfl⟩, ⟨rfl, rfl, rfl⟩⟩

end Sys2Proof.CharacterIO
end

section
/-! PROOFS. Debug mode as an observer (spec/60_exceptions.md R146): taking a state's trace away commutes with every
operation, and so with the step and with every run. Two states that differ in debug mode alone are one state without
it, so that their steps are one step. -/

namespace Sys2Proof.Machine

open Sys2Proof.Safety

/-! ### Answers without what debug mode adds -/

/-- An answer without what debug mode adds: `withoutTrace` of a next state, and the reason of a stop as it is. -/
def resultWithoutTrace : Result → Result
  | .next s => .next (withoutTrace s)
  | .fault r => .fault r
  | .refused r => .refused r

/-- Two answers agree but for debug mode exactly when they are the same answer without it. -/
theorem sameButTrace_iff {r r' : Result} : sameButTrace r r' ↔ resultWithoutTrace r = resultWithoutTrace r' := by
  cases r <;> cases r' <;> simp [sameButTrace, resultWithoutTrace]

/-! ### The operations commute with it -/

/-- An event of the program stays where its trace is taken away. -/
theorem withoutTrace_emit {e : Event} (he : Event.untraced e = true) (s : State) :
    withoutTrace (s.emit e) = (withoutTrace s).emit e := by
  simp [withoutTrace, State.emit, he]

/-- A trace event does not stay. -/
theorem withoutTrace_emit_trace {e : Event} (he : Event.untraced e = false) (s : State) :
    withoutTrace (s.emit e) = withoutTrace s := by
  simp [withoutTrace, State.emit, he]

theorem withoutTrace_traceStep (s : State) (c : Byte) : withoutTrace (s.traceStep c) = withoutTrace s := by
  unfold State.traceStep
  split
  · exact withoutTrace_emit_trace rfl s
  · rfl

theorem withoutTrace_traceProgram (s : State) : withoutTrace s.traceProgram = withoutTrace s := by
  unfold State.traceProgram
  split
  · exact withoutTrace_emit_trace rfl s
  · rfl

theorem withoutTrace_extendTape (s : State) : withoutTrace s.extendTape = (withoutTrace s).extendTape := by
  rw [State.extendTape, apply_ite withoutTrace]
  rfl

theorem withoutTrace_jump (s : State) (b : Bool) :
    withoutTrace (s.jumpIf b).advance = ((withoutTrace s).jumpIf b).advance := by
  cases b <;> rfl

theorem withoutTrace_out (s : State) (v : Byte) :
    withoutTrace (s.emit (.out v)).advance = ((withoutTrace s).emit (.out v)).advance :=
  congrArg State.advance (withoutTrace_emit rfl s)

theorem withoutTrace_rejectInput (s : State) : withoutTrace s.rejectInput = (withoutTrace s).rejectInput :=
  congrArg (State.setInwait · true) (withoutTrace_emit rfl s)

theorem withoutTrace_moveRight (s : State) :
    withoutTrace ((s.setCp (s.cp + 1)).extendTape).advance =
      (((withoutTrace s).setCp (s.cp + 1)).extendTape).advance :=
  congrArg State.advance (withoutTrace_extendTape (s.setCp (s.cp + 1)))

/-- R146 for the resolver: the same rule of R79 to R84 applies, and the program report is all that goes. -/
theorem withoutTrace_scan (s : State) : withoutTrace s.scan = (withoutTrace s).scan := by
  rcases s.scan_cases with ⟨hc, hs⟩ | ⟨i, hc, ht, hs⟩ | ⟨hc, ht, hs⟩ | ⟨c, hc, h1, h2, hs⟩ | ⟨hc, hb, hs⟩ |
    ⟨b, hc, hb, hs⟩ <;> rw [hs]
  · exact (State.scan_of_opener (s := withoutTrace s) hc).symm
  · exact (State.scan_of_closer (s := withoutTrace s) hc ht).symm
  · exact (State.scan_of_unmatched_closer (s := withoutTrace s) hc ht).symm
  · exact (State.scan_of_other (s := withoutTrace s) hc h1 h2).symm
  · rw [State.scan_of_end (s := withoutTrace s) hc hb]
    exact congrArg (State.setPhase · .run) (withoutTrace_traceProgram s)
  · exact (State.scan_of_left_over (s := withoutTrace s) hc hb).symm

/-! ### The instructions commute with it -/

/-- An operation on the current cell commutes when what it goes on with does. -/
theorem withCur_withoutTrace {s : State} {k k' : Byte → Result} (h : ∀ v, resultWithoutTrace (k v) = k' v) :
    resultWithoutTrace (s.withCur k) = (withoutTrace s).withCur k' := by
  cases hs : s.cur with
  | some v => rw [State.withCur_of_cur k hs, State.withCur_of_cur (s := withoutTrace s) k' hs, h]
  | none =>
    have habs : s.tlen ≤ s.cp := State.readTape_eq_none.1 hs
    rw [State.withCur_of_absent k habs, State.withCur_of_absent (s := withoutTrace s) k' habs]
    rfl

/-- The next unit is the same, and its taking commutes. -/
theorem inTakeFrom_withoutTrace (env : Environment) (s : State) :
    (withoutTrace s).inTakeFrom env = (s.inTakeFrom env).map (Prod.map id withoutTrace) := by
  have hinq : (withoutTrace s).inq = s.inq := rfl
  unfold State.inTakeFrom
  rw [hinq]
  cases s.inq.takeFrom env <;> rfl

theorem execInFrom_withoutTrace (env : Environment) (s : State) :
    resultWithoutTrace (execInFrom env s) = execInFrom env (withoutTrace s) := by
  unfold execInFrom
  rw [inTakeFrom_withoutTrace]
  rcases s.inTakeFrom env with _ | ⟨u, s'⟩
  case none => rfl
  case some =>
    dsimp only [Option.map_some, Prod.map_apply, id]
    cases validValue u with
    | some v => exact withCur_withoutTrace fun _ => rfl
    | none => exact congrArg Host.Outcome.next (withoutTrace_rejectInput s')

theorem execLeft_withoutTrace (s : State) : resultWithoutTrace (execLeft s) = execLeft (withoutTrace s) := by
  rw [execLeft, apply_ite resultWithoutTrace]
  rfl

theorem execRight_withoutTrace (s : State) : resultWithoutTrace (execRight s) = execRight (withoutTrace s) := by
  rw [execRight, apply_ite resultWithoutTrace]
  simp only [resultWithoutTrace, withoutTrace_moveRight]
  rfl

/-- R146 for the dispatch. -/
theorem exec_withoutTrace (i : Instr) (s : State) : resultWithoutTrace (exec i s) = exec i (withoutTrace s) := by
  cases i with
  | inc | dec => exact withCur_withoutTrace fun _ => rfl
  | out => exact withCur_withoutTrace fun v => congrArg Host.Outcome.next (withoutTrace_out s v)
  | loops | loope => exact withCur_withoutTrace fun v => congrArg Host.Outcome.next (withoutTrace_jump s _)
  | input => exact execInFrom_withoutTrace _ s
  | left => exact execLeft_withoutTrace s
  | right => exact execRight_withoutTrace s
  | nop => rfl

/-! ### The step and the run commute with it -/

/-- R146: the step of a state without its trace is the step without its trace. -/
theorem step_withoutTrace (s : State) : resultWithoutTrace (step s) = step (withoutTrace s) := by
  unfold step
  cases hp : s.phase with
  | resolve =>
    rw [stepBy_of_resolve _ hp, stepBy_of_resolve (s := withoutTrace s) _ hp, ← withoutTrace_scan]
    rfl
  | halt =>
    rw [stepBy_of_halt _ hp, stepBy_of_halt (s := withoutTrace s) _ hp]
    rfl
  | fault =>
    rw [stepBy_of_fault _ hp, stepBy_of_fault (s := withoutTrace s) _ hp]
    rfl
  | run =>
    by_cases hi : s.ip = s.plen
    · rw [stepBy_of_end _ hp hi, stepBy_of_end (s := withoutTrace s) _ hp hi]
      rfl
    · cases hc : s.fetch with
      | none =>
        rw [stepBy_of_no_cell _ hp hi hc, stepBy_of_no_cell (s := withoutTrace s) _ hp hi hc]
        rfl
      | some c =>
        rw [stepBy_of_fetch _ hp hc, stepBy_of_fetch (s := withoutTrace s) _ hp hc, exec_withoutTrace,
          withoutTrace_traceStep, State.traceStep_of_debug_off (withoutTrace s) c rfl]

/-- R146, along a run. -/
theorem run_withoutTrace (n : Nat) (s : State) :
    resultWithoutTrace (Host.Core.run Sys2Proof.core n s) = Host.Core.run Sys2Proof.core n (withoutTrace s) := by
  induction n generalizing s with
  | zero => rfl
  | succ n ih =>
    have hstep := step_withoutTrace s
    cases hs : step s with
    | next t =>
      rw [hs] at hstep
      rw [run_succ n hs, run_succ n hstep.symm, ih]
    | fault r =>
      rw [hs] at hstep
      rw [run_succ_fault n hs, run_succ_fault n hstep.symm]
      rfl
    | refused r =>
      rw [hs] at hstep
      rw [run_succ_refused n hs, run_succ_refused n hstep.symm]
      rfl

end Sys2Proof.Machine
end

section
/-! PROOFS. The fault table (spec/60_exceptions.md R126, R130) as a relation with one case for each of its rows: the step
of a row's state is its fault entry, and every step into phase `FAULT` is a row's. -/

namespace Sys2Proof.Machine

open Sys2Proof.Safety

/-- `t` is what fault entry makes of `s`, by the row of the fault table whose condition holds of `s`. -/
inductive FaultStep (s : State) : State → Prop where
  | unmatchedCloser (hp : s.phase = .resolve) (hc : s.readProg s.rs = some codeLoope) (hstk : s.stk = []) :
    FaultStep s (s.raise .unmatchedBracket codeLoope s.rs)
  | leftOver {b : Nat} (hp : s.phase = .resolve) (hend : s.plen ≤ s.rs) (hbot : s.stk.head? = some b) :
    FaultStep s (s.raise .unmatchedBracket codeLoops b)
  | leftAtZero (hp : s.phase = .run) (hf : s.fetch = some codeLeft) (hcp : s.cp = 0) :
    FaultStep s ((s.traceStep codeLeft).raise .negativeTapeIndex codeLeft s.ip)
  | rightAtLimit (hp : s.phase = .run) (hf : s.fetch = some codeRight) (hend : s.cp + 1 = s.tlen)
    (hmax : s.tapeMax = some s.tlen) : FaultStep s ((s.traceStep codeRight).raise .tapeLimit codeRight s.ip)

section Fault

variable {env : Environment} {s t : State}

theorem FaultStep.phase (h : FaultStep s t) : t.phase = .fault := by
  cases h <;> rfl

theorem step_right_at_limit (hp : s.phase = .run) (hf : s.fetch = some codeRight) (hend : s.cp + 1 = s.tlen)
    (hmax : s.tapeMax = some s.tlen) : step s = .next ((s.traceStep codeRight).raise .tapeLimit codeRight s.ip) := by
  have hlimit := execRight_at_limit (s := s.traceStep codeRight) (by simpa using hend) (by simpa using hmax)
  rw [State.traceStep_ip] at hlimit
  exact (step_of_fetch hp hf).trans hlimit

/-- R126: where a row's condition holds the step is its fault entry. -/
theorem FaultStep.step (h : FaultStep s t) : step s = .next t := by
  cases h with
  | unmatchedCloser hp hc hstk =>
    rw [Machine.step, stepBy_of_resolve _ hp, State.scan_of_unmatched_closer hc hstk]
    rfl
  | leftOver hp hend hbot =>
    rw [Machine.step, stepBy_of_resolve _ hp, State.scan_of_left_over (State.readProg_eq_none.2 hend) hbot]
    rfl
  | leftAtZero hp hf hcp => exact step_left_at_zero hp hf hcp
  | rightAtLimit hp hf hend hmax => exact step_right_at_limit hp hf hend hmax

/-- R126: no other rule of the resolver or of the engine leads to phase `FAULT`. -/
theorem StepRule.faultStep (h : StepRule env s t) (ht : t.phase = .fault) : FaultStep s t := by
  cases h with
  | scan hp r =>
    cases r with
    | unmatchedCloser hc hstk => exact .unmatchedCloser hp hc hstk
    | leftOver hend hbot => exact .leftOver hp (State.readProg_eq_none.1 hend) hbot
    | opener | closer | other => exact absurd (hp.symm.trans ht) nofun
    | success => exact absurd ht nofun
  | halt _ _ hhalt => subst hhalt; exact absurd ht nofun
  | engine hp hf r =>
    cases r with
    | leftAtZero hc hcp =>
      subst hc
      rw [State.traceStep_ip]
      exact .leftAtZero hp hf (by simpa using hcp)
    | rightAtLimit hc hend hmax =>
      subst hc
      rw [State.traceStep_ip]
      exact .rightAtLimit hp hf (by simpa using hend) (by simpa using hmax)
    | _ => simp [hp] at ht

/-- R126, R130: a step enters phase `FAULT` exactly where a row's condition holds. -/
theorem fault_iff_faultStep (h : step s = .next t) : t.phase = .fault ↔ ∃ u, FaultStep s u := by
  refine ⟨fun ht => ⟨t, (step_rule h).faultStep ht⟩, fun ⟨u, hu⟩ => ?_⟩
  obtain rfl := Host.Outcome.next.inj (hu.step.symm.trans h)
  exact hu.phase

/-- The conditions of the fault table. -/
theorem exists_faultStep_iff :
    (∃ u, FaultStep s u) ↔
      (s.phase = .resolve ∧ s.readProg s.rs = some codeLoope ∧ s.stk = []) ∨
      (s.phase = .resolve ∧ s.plen ≤ s.rs ∧ s.stk ≠ []) ∨
      (s.phase = .run ∧ s.fetch = some codeLeft ∧ s.cp = 0) ∨
      (s.phase = .run ∧ s.fetch = some codeRight ∧ s.cp + 1 = s.tlen ∧ s.tapeMax = some s.tlen) := by
  constructor
  · rintro ⟨u, h⟩
    cases h with
    | unmatchedCloser hp hc hstk => exact .inl ⟨hp, hc, hstk⟩
    | leftOver hp hend hbot => exact .inr (.inl ⟨hp, hend, fun hnil => by simp [hnil] at hbot⟩)
    | leftAtZero hp hf hcp => exact .inr (.inr (.inl ⟨hp, hf, hcp⟩))
    | rightAtLimit hp hf hend hmax => exact .inr (.inr (.inr ⟨hp, hf, hend, hmax⟩))
  · rintro (⟨hp, hc, hstk⟩ | ⟨hp, hend, hstk⟩ | ⟨hp, hf, hcp⟩ | ⟨hp, hf, hend, hmax⟩)
    · exact ⟨_, .unmatchedCloser hp hc hstk⟩
    · exact ⟨_, .leftOver hp hend (List.head?_eq_some_head hstk)⟩
    · exact ⟨_, .leftAtZero hp hf hcp⟩
    · exact ⟨_, .rightAtLimit hp hf hend hmax⟩

/-! ### The frame of fault entry -/

/-- A trace shows in the history alone. -/
theorem State.traceStep_eq (s : State) (c : Byte) : s.traceStep c = { s with hist := (s.traceStep c).hist } := by
  unfold State.traceStep
  split <;> rfl

/-- R130: the error record and `PHASE` are written, and `HIST` is left to the trace of the step. -/
theorem FaultStep.frame (h : FaultStep s t) :
    t = { s with ecause := t.ecause, echar := t.echar, epos := t.epos, phase := .fault, hist := t.hist } := by
  cases h with
  | unmatchedCloser | leftOver => rfl
  | leftAtZero | rightAtLimit =>
    rw [State.traceStep_eq]
    rfl

theorem FaultStep.ecause_ne_none (h : FaultStep s t) : t.ecause ≠ .none := by
  cases h <;> exact nofun

/-- R131: the host reads the record of a fault. -/
theorem State.report_of_fault (ht : t.phase = .fault) : t.report = some (t.ecause, t.echar, t.epos) := by
  simp only [State.report, ht]

/-- R144: an instruction that is no bracket reports no branch, where it is reported at all. -/
theorem State.traceStep_hist_cases {c : Byte} (hb : branchOf (decodeCell c) s = .none) :
    (s.traceStep c).hist = s.hist ∨
    (s.debug = true ∧ (s.traceStep c).hist = s.hist ++ [.traceStep s.tapeCells s.cp c .none]) := by
  by_cases h : (decodeCell c).recognised = true ∧ s.debug = true ∧ s.inwait = false
  · have ⟨_, hdebug, _⟩ := h
    rw [State.traceStep_of_traced h, hb]
    exact .inr ⟨hdebug, rfl⟩
  · rw [State.traceStep_of_untraced h]
    exact .inl rfl

/-- R130: the history after fault entry is the one before, or holds the report of the same step too. -/
theorem FaultStep.hist_cases (h : FaultStep s t) :
    t.hist = s.hist ∨ ∃ c, s.phase = .run ∧ s.debug = true ∧ s.fetch = some c ∧
      t.hist = s.hist ++ [.traceStep s.tapeCells s.cp c .none] := by
  cases h with
  | unmatchedCloser | leftOver => exact .inl rfl
  | leftAtZero hp hf =>
    exact (State.traceStep_hist_cases (c := codeLeft) rfl).imp_right fun ⟨hd, hh⟩ => ⟨_, hp, hd, hf, hh⟩
  | rightAtLimit hp hf =>
    exact (State.traceStep_hist_cases (c := codeRight) rfl).imp_right fun ⟨hd, hh⟩ => ⟨_, hp, hd, hf, hh⟩

/-- R9, R130: phase `FAULT` has no step. -/
theorem step_ne_next_of_fault (ht : t.phase = .fault) (u : State) : Machine.step t ≠ .next u := by
  rw [Machine.step, stepBy_of_fault exec ht]
  exact nofun

end Fault

end Sys2Proof.Machine
end

section
/-! PROOFS. What debug mode adds to `HIST` (spec/60_exceptions.md R143, R144): the program report of the scan's end, and
the report before an operation, whose own event is no trace event. -/

namespace Sys2Proof.Machine

open Sys2Proof.Safety

section Report

variable {env : Environment} {s t : State} {c : Byte}

/-! ### The resolver and the halt -/

/-- R83, R143: the end of a successful scan. -/
theorem step_of_scan_end (hp : s.phase = .resolve) (hend : s.plen ≤ s.rs) (hstk : s.stk = []) :
    step s = .next (s.traceProgram.setPhase .run) := by
  rw [step, stepBy_of_resolve exec hp, State.scan_of_end (State.readProg_eq_none.2 hend) hstk, State.scanSuccess]

/-- R78: no other rule of the resolver emits an event. -/
theorem ScanRule.hist_of_not_end (r : ScanRule s t) (h : ¬ (s.plen ≤ s.rs ∧ s.stk = [])) : t.hist = s.hist := by
  cases r with
  | success hend hstk => exact absurd ⟨State.readProg_eq_none.1 hend, hstk⟩ h
  | opener | closer | unmatchedCloser | other | leftOver => rfl

/-- R96: nor does the halt. -/
theorem StepRule.hist_of_end (h : StepRule env s t) (hp : s.phase = .run) (hip : s.ip = s.plen) :
    t.hist = s.hist := by
  cases h with
  | scan hp' => exact absurd (hp.symm.trans hp') nofun
  | halt _ _ ht => rw [ht, State.setPhase_hist]
  | engine _ hf => exact absurd hip (State.lt_of_readProg hf).ne

/-! ### The engine -/

/-- R116, R120: an operation emits no trace event. -/
theorem OpRule.hist_untraced (r : OpRule env c s t) :
    ∃ es, t.hist = s.hist ++ es ∧ ∀ e ∈ es, Event.untraced e = true := by
  cases r with
  | reject => exact ⟨[.diag], rfl, by simp [Event.untraced]⟩
  | out => exact ⟨[.out _], rfl, by simp [Event.untraced]⟩
  | _ => exact ⟨[], (List.append_nil _).symm, nofun⟩

/-- R91, R95: a step of the engine is its trace, and then events of the program. -/
theorem StepRule.hist_after_trace (h : StepRule env s t) (hp : s.phase = .run) (hf : s.fetch = some c) :
    ∃ es, t.hist = (s.traceStep c).hist ++ es ∧ ∀ e ∈ es, Event.untraced e = true := by
  cases h with
  | scan hp' => exact absurd (hp.symm.trans hp') nofun
  | halt _ hip => exact absurd hip (State.lt_of_readProg hf).ne
  | engine _ hf' r =>
    obtain rfl := Option.some.inj (hf.symm.trans hf')
    exact r.hist_untraced

/-- R64, R144: the instructions that are reported are those of the cells that are not inert. -/
theorem recognised_decodeCell_iff : (decodeCell c).recognised = true ↔ isInert c = false := by
  rw [decodeCell_recognised, Bool.not_eq_true']

/-! ### The branch word -/

/-- R110, R111: a bracket whose step goes on has read the current cell. -/
theorem cur_of_step_bracket (h : step s = .next t) (hp : s.phase = .run) (hf : s.fetch = some c)
    (hc : c = codeLoops ∨ c = codeLoope) : ∃ v, s.cur = some v := by
  rw [step_of_fetch hp hf] at h
  rcases hc with rfl | rfl
  · obtain ⟨v, hcur, -⟩ := execLoops_next (s := s.traceStep codeLoops) h
    exact ⟨v, State.traceStep_cur s _ ▸ hcur⟩
  · obtain ⟨v, hcur, -⟩ := execLoope_next (s := s.traceStep codeLoope) h
    exact ⟨v, State.traceStep_cur s _ ▸ hcur⟩

/-- R145, for `[`, by the current cell. -/
theorem branchOf_opener {v : Byte} (hcur : s.cur = some v) :
    branchOf .loops s = if s.cur = some 0 then .skip else .enter := by
  simp only [branchOf_loops hcur, hcur, loopsTaken_iff, Option.some.injEq]

/-- R145, for `]`, by the current cell. -/
theorem branchOf_closer {v : Byte} (hcur : s.cur = some v) :
    branchOf .loope s = if s.cur = some 0 then .finish else .reenter := by
  simp only [branchOf_loope hcur, hcur, loopeTaken_iff, Option.some.injEq, ite_not]

/-- R145: no other character has a branch. -/
theorem branchOf_of_no_bracket (hopen : c ≠ codeLoops) (hclose : c ≠ codeLoope) :
    branchOf (decodeCell c) s = .none := by
  rcases decodeCell_cases c with ⟨-, hd⟩ | ⟨-, hd⟩ | ⟨-, hd⟩ | ⟨-, hd⟩ | ⟨-, hd⟩ | ⟨-, hd⟩ | ⟨hc, -⟩ | ⟨hc, -⟩ |
    ⟨-, hd⟩
  case inr.inr.inr.inr.inr.inr.inl => exact absurd hc hopen
  case inr.inr.inr.inr.inr.inr.inr.inl => exact absurd hc hclose
  all_goals rw [hd]; rfl

/-! ### The report and the value of a `.` -/

/-- R116, R144: the step of a reported `.` adds its report and then the current cell. -/
theorem step_hist_of_traced_out (h : step s = .next t) (hp : s.phase = .run) (hf : s.fetch = some codeOut)
    (hdebug : s.debug = true) (hwait : s.inwait = false) :
    ∃ v, s.cur = some v ∧ t.hist = s.hist ++ [.traceStep s.tapeCells s.cp codeOut .none, .out v] := by
  rw [step_of_fetch hp hf] at h
  obtain ⟨v, hcur, rfl⟩ := execOut_next (s := s.traceStep codeOut) h
  rw [State.traceStep_cur] at hcur
  refine ⟨v, hcur, ?_⟩
  rw [State.traceStep_of_traced ⟨rfl, hdebug, hwait⟩]
  exact List.append_assoc _ _ _

/-- What a step adds to the history it adds to what is delivered, whatever earlier runs have left (R155). -/
theorem Session.delivered_of_hist {es : List Event} (h : t.hist = s.hist ++ es) (earlier : List Event) :
    Session.delivered ⟨earlier, t⟩ = Session.delivered ⟨earlier, s⟩ ++ es := by
  simp only [Session.delivered, h, List.append_assoc]

end Report

end Sys2Proof.Machine

namespace Sys2Proof.Safety

/-- R147: a single stream keeps every order. -/
theorem SingleStream.delivers {d : Delivery} (h : SingleStream d) : Delivers d where
  output x := by rw [h x]
  traces x := by rw [h x]
  diagnostics x := by rw [h x]

end Sys2Proof.Safety
end

section
/-! PROOFS. The statements of the exceptions and of debug mode (spec/60_exceptions.md R126 to R147). -/

namespace Sys2Proof.Exceptions

open Sys2Proof.Machine Sys2Proof.Safety

/-- Settles O37: the step and the run commute with `withoutTrace`, under which the two states are one. -/
theorem debugModeIsPureObserver : Obligations.DebugModeIsPureObserver := by
  refine ⟨fun s s' h => ?step, fun n text tapeMax input => ?run⟩
  case step => rw [sameButTrace_iff, step_withoutTrace, step_withoutTrace, h]
  case run =>
    have hsame : withoutTrace (State.launch text true tapeMax input) =
      withoutTrace (State.launch text false tapeMax input) := rfl
    have hon := run_withoutTrace n (State.launch text true tapeMax input)
    rw [hsame, ← run_withoutTrace] at hon
    exact sameButTrace_iff.2 hon

/-- Settles O32: the conditions of the rows, and the record of each. -/
theorem faultTableIsComplete : Obligations.FaultTableIsComplete := by
  refine ⟨⟨rfl, rfl, rfl, rfl⟩, fun s t h => ⟨(fault_iff_faultStep h).trans exists_faultStep_iff, fun ht => ?record⟩⟩
  cases (step_rule h).faultStep ht with
  | unmatchedCloser hp hc => exact .inl ⟨hp, rfl, .inl ⟨hc, rfl, rfl⟩⟩
  | leftOver hp hend hbot => exact .inl ⟨hp, rfl, .inr ⟨hend, rfl, hbot⟩⟩
  | leftAtZero hp hf => exact .inr (.inl ⟨hp, hf, rfl, rfl, rfl⟩)
  | rightAtLimit hp hf => exact .inr (.inr ⟨hp, hf, rfl, rfl, rfl⟩)

/-- Settles O33: the frame of fault entry, row by row, and that phase `FAULT` has no step. -/
theorem faultEntryIsPrecise : Obligations.FaultEntryIsPrecise := by
  intro s t h ht
  have hfault := (step_rule h).faultStep ht
  exact ⟨hfault.frame, hfault.ecause_ne_none, State.report_of_fault ht, hfault.hist_cases, step_ne_next_of_fault ht,
    fun _ => ⟨rfl, rfl⟩⟩

/-- Settles O35: a recorded cause is a fault entry, and the two rows of `UnmatchedBracket` are the resolver's, where the
engine is as reset left it. -/
theorem unmatchedBracketPrecedesExecution : Obligations.UnmatchedBracketPrecedesExecution := by
  intro s t hs h hcause
  have hrule := step_rule h
  have ht : t.phase = .fault := (inv_of_stepRule hrule hs).causeIffFault.1 (by rw [hcause]; exact nofun)
  have hstop := step_ne_next_of_fault ht
  have htape : s.tape = [] → s.tlen = 1 → s.tapeCells = [0] := fun hnil hone => by
    rw [State.tapeCells, hnil, hone]
    rfl
  cases hrule.faultStep ht with
  | unmatchedCloser hp hc =>
    obtain ⟨hip, hcp, hnil, hone, hhist⟩ := (hs.resolving hp).engineFresh
    exact ⟨hp, rfl, hhist, hip, hcp, htape hnil hone, .inl ⟨hc, rfl, rfl⟩, hstop⟩
  | leftOver hp _ hbot =>
    obtain ⟨hip, hcp, hnil, hone, hhist⟩ := (hs.resolving hp).engineFresh
    exact ⟨hp, rfl, hhist, hip, hcp, htape hnil hone, .inr ⟨rfl, hbot⟩, hstop⟩
  | leftAtZero | rightAtLimit => exact absurd hcause nofun

/-- Settles O36: the program report at the scan's end, silence elsewhere, and the report before an operation. -/
theorem traceEventsCarryTheReport : Obligations.TraceEventsCarryTheReport := by
  refine ⟨fun s hp hend hstk => ?scanEnd, fun s t h hquiet => ?quiet, fun s t c hp hf h => ?engine⟩
  case scanEnd =>
    rw [step_of_scan_end hp hend hstk]
    refine ⟨fun hdebug => ?_, fun hdebug => ?_⟩
    · rw [State.traceProgram, if_pos hdebug]
      rfl
    · rw [State.traceProgram, if_neg (Bool.eq_false_iff.1 hdebug)]
      rfl
  case quiet =>
    rcases hquiet with ⟨hp, hnot⟩ | ⟨hp, hip⟩
    · cases step_rule h with
      | scan _ r => exact r.hist_of_not_end hnot
      | halt hp' | engine hp' => exact absurd (hp.symm.trans hp') nofun
    · exact (step_rule h).hist_of_end hp hip
  case engine =>
    obtain ⟨es, hes, huntraced⟩ := (step_rule h).hist_after_trace hp hf
    rw [← recognised_decodeCell_iff, and_left_comm]
    refine ⟨fun htraced => ⟨branchOf (decodeCell c) s, es, ?_, ?_, ?_, branchOf_of_no_bracket, huntraced⟩,
      fun hnot => ⟨es, ?_, huntraced⟩⟩
    · rw [hes, State.traceStep_of_traced htraced]
      exact List.append_assoc _ _ _
    · rintro rfl
      obtain ⟨v, hcur⟩ := cur_of_step_bracket h hp hf (.inl rfl)
      exact branchOf_opener hcur
    · rintro rfl
      obtain ⟨v, hcur⟩ := cur_of_step_bracket h hp hf (.inr rfl)
      exact branchOf_closer hcur
    · rw [hes, State.traceStep_of_untraced hnot]

/-- Settles O57: the report and the value are added to what is delivered, and each realisation keeps them in its kind. -/
theorem deliveryKeepsOrderWithinKinds : Obligations.DeliveryKeepsOrderWithinKinds := by
  refine ⟨fun d hd => hd.delivers, fun d earlier s t hp hf hdebug hwait h => ?_⟩
  obtain ⟨v, hcur, hhist⟩ := step_hist_of_traced_out h hp hf hdebug hwait
  have hadds := Session.delivered_of_hist hhist earlier
  refine ⟨v, hcur, fun hd => ⟨?output, ?traces⟩, fun hd => ?stream⟩
  case output => rw [hd.output, hd.output, hadds, outputOf_append]; rfl
  case traces => rw [hd.traces, hd.traces, hadds, tracesOf_append]; rfl
  case stream => rw [hd, hd, hadds]

end Sys2Proof.Exceptions
end

section
/-! PROOFS. What a session has delivered, along its actions (spec/70_reset_and_hazards.md R154, R155), and what a step
keeps of the launch premises (R156). -/

namespace Sys2Proof.Machine

open Sys2Proof.Safety

/-! ### What is delivered is not withdrawn -/

section Delivered

variable {env : Environment} {x : Session}

/-- R155: a kill moves the events of the present run to those of the earlier ones. -/
@[simp] theorem Session.kill_delivered (x : Session) (input : InputQueue) : (x.kill input).delivered = x.delivered :=
  List.append_nil _

/-- R152, R155: so does a reset with another program. -/
@[simp] theorem Session.relaunch_delivered (x : Session) (text : List Byte) (debug : Bool) (tapeMax : Option Nat)
    (input : InputQueue) : (x.relaunch text debug tapeMax input).delivered = x.delivered :=
  List.append_nil _

/-- R24: a step action appends to what is delivered, or does nothing where the machine has no step. -/
theorem Session.delivered_prefix_step : x.delivered <+: (x.act env .step).delivered := by
  rcases x.act_step_cases env with ⟨t, ht, hact⟩ | ⟨-, hact⟩ <;> rw [hact]
  obtain ⟨es, hes, -⟩ := (stepFrom_rule ht).hist_cases
  exact ⟨es, (Session.delivered_of_hist hes x.earlier).symm⟩

/-- R155: no action withdraws an event; only a step delivers one. -/
theorem Session.delivered_prefix_act (a : Action) : x.delivered <+: (x.act env a).delivered := by
  cases a with
  | step => exact Session.delivered_prefix_step
  | kill input => simp only [Session.act, Session.kill_delivered, List.prefix_rfl]
  | relaunch text debug tapeMax input => simp only [Session.act, Session.relaunch_delivered, List.prefix_rfl]
  | supply u => exact List.prefix_rfl

/-- R155: nor does any sequence of actions. -/
theorem Session.delivered_prefix_acts (as : List Action) : x.delivered <+: (x.acts env as).delivered := by
  induction as generalizing x with
  | nil => exact List.prefix_rfl
  | cons a as ih => exact (Session.delivered_prefix_act a).trans ih

end Delivered

end Sys2Proof.Machine

namespace Sys2Proof.Safety

open Sys2Proof.Machine

/-! ### What is received, by kind -/

/-- The output of a beginning of a history is a beginning of its output (R24). -/
theorem outputOf_prefix {es fs : List Event} (h : es <+: fs) : outputOf es <+: outputOf fs :=
  h.filterMap _

/-- The trace events of a beginning of a history are a beginning of its trace events (R147). -/
theorem tracesOf_prefix {es fs : List Event} (h : es <+: fs) : tracesOf es <+: tracesOf fs :=
  h.filter _

/-- R147, R155: where more is delivered, every realisation has received no less of each kind. -/
theorem Delivers.of_delivered_prefix {d : Delivery} {x y : Session} (hd : Delivers d)
    (h : x.delivered <+: y.delivered) :
    outputOf (d x) <+: outputOf (d y) ∧ tracesOf (d x) <+: tracesOf (d y) ∧
      (d x).count .diag ≤ (d y).count .diag := by
  rw [hd.output, hd.output, hd.traces, hd.traces, hd.diagnostics, hd.diagnostics]
  exact ⟨outputOf_prefix h, tracesOf_prefix h, h.sublist.count_le _⟩

/-! ### The launch premises along a run -/

/-- R15: a program that is kept stays loaded. -/
theorem ProgramLoaded.of_keepsProgram {text : List Byte} {s t : State} (hs : ProgramLoaded text s)
    (h : KeepsProgram s t) : ProgramLoaded text t := by
  obtain ⟨hprog, hplen, -, -⟩ := h
  obtain ⟨htext, hlength⟩ := hs
  exact ⟨hprog.trans htext, hplen.trans hlength⟩

/-- R16: a flag that is kept stays fixed. -/
theorem DebugFixed.of_keepsProgram {debug : Bool} {s t : State} (hs : DebugFixed debug s) (h : KeepsProgram s t) :
    DebugFixed debug t := by
  obtain ⟨-, -, hdebug, -⟩ := h
  exact hdebug.trans hs

/-- Reset sees nothing of a state but what it keeps (R150). -/
theorem KeepsProgram.restart_eq {s t : State} (h : KeepsProgram s t) (input : InputQueue) :
    t.restart input = s.restart input := by
  obtain ⟨hprog, hplen, hdebug, htapeMax⟩ := h
  rw [State.restart, hprog, hplen, hdebug, htapeMax]
  rfl

end Sys2Proof.Safety
end

section
/-! PROOFS. The statements of reset and the hazards (spec/70_reset_and_hazards.md R150 to R156). -/

namespace Sys2Proof.ResetAndHazards

open Sys2Proof.Machine Sys2Proof.Safety

/-- Settles O56: the launch is built from the premises, and every step keeps the program and the flag. -/
theorem launchPremisesHold : Obligations.LaunchPremisesHold := by
  intro text debug tapeMax input s
  have hprog : ProgramLoaded text s := ⟨rfl, rfl⟩
  have hdebug : DebugFixed debug s := rfl
  refine ⟨⟨hprog, hdebug, rfl, rfl, rfl⟩, fun env n t hrun => ?_⟩
  refine coreRun_keeps (M := coreFrom env) (P := fun t => ProgramLoaded text t ∧ DebugFixed debug t) ?step hrun
    ⟨hprog, hdebug⟩
  case step =>
    rintro s t ⟨hloaded, hfixed⟩ h
    have hkeeps : KeepsProgram s t := (stepFrom_rule h).keepsProgram
    exact ⟨hloaded.of_keepsProgram hkeeps, hfixed.of_keepsProgram hkeeps⟩

/-- Settles O58: a kill moves the history to the earlier events, and no action takes any away. -/
theorem eventsAreNeverWithdrawn : Obligations.EventsAreNeverWithdrawn := by
  refine ⟨fun x input => ⟨rfl, rfl, x.kill_delivered input⟩, fun env x as => ?_⟩
  have hprefix : x.delivered <+: (x.acts env as).delivered := Session.delivered_prefix_acts as
  refine ⟨hprefix, fun d => ⟨fun hd => ?_, fun hd => hd.of_delivered_prefix hprefix⟩⟩
  rw [hd, hd]
  exact hprefix

/-- Settles O45: each element by its value of R32, and nothing of the state but the four elements that reset keeps. -/
theorem resetSetsEveryElement : Obligations.ResetSetsEveryElement :=
  ⟨fun _ _ => ⟨rfl, rfl, rfl, fun _ => rfl, rfl, rfl, rfl, rfl, rfl, rfl, rfl, rfl, rfl, rfl, rfl, rfl, rfl, rfl⟩,
    fun _ _ input h => h.restart_eq input⟩

end Sys2Proof.ResetAndHazards
end
